-- ==== Sys2Proof/Word.lean ====
section
/-! DEFINITION. The two bit-vector types of the block. -/

namespace Sys2Proof

/-- A byte of the program store (R12, R39). -/
abbrev Byte := BitVec 8

/-- A `W`-bit value, `W = 32`: the content of a register, of a memory cell or of the accumulator
(R10, R11, R20, R32, R50; D1). -/
abbrev Word := BitVec 32

end Sys2Proof
end

