-- ==== Sys2Proof/Syntax.lean ====
section
/-! DEFINITION. The instructions as decoded terms, the six mnemonics and the names of the operand
fields (R80). An operand value stands as the integer the encoding gives it: a constant read as
two's complement (R88), an address and a register index read unsigned (R87, R89). -/

namespace Sys2Proof

/-- The instruction set: one constructor per row of the opcode table, operands in declaration order
(R2, R80). A register operand may name no register: R89 lets 32..255 decode and R99 faults it. -/
inductive Instr where
  /-- LOAD_CONST (R130). -/
  | loadConst (constant : Int) (destRegister : Nat)
  /-- LOAD_MEM (R134). -/
  | loadMem (address : Nat) (destRegister : Nat)
  /-- STORE_MEM (R138). -/
  | storeMem (srcRegister : Nat) (address : Nat)
  /-- GE_OP (R151). -/
  | geOp (regA regB regResult : Nat)
  /-- ADD_OP (R155). -/
  | addOp (regA regB regResult : Nat)
  /-- SUB_OP (R158). -/
  | subOp (regA regB regResult : Nat)
deriving DecidableEq, Repr

/-- The six mnemonics (R80). -/
inductive Mnemonic where
  | loadConst | loadMem | storeMem | geOp | addOp | subOp
deriving DecidableEq, Repr

/-- The names of the operand fields (R80, R82 to R85, R173). -/
inductive Operand where
  | constant | address | destRegister | srcRegister | regA | regB | regResult
deriving DecidableEq, Repr

end Sys2Proof
end

