-- ==== Sys2Proof/WellFormed.lean ====
section
/-! DEFINITION. When a term of `Instr` is an instruction an encoding can carry: every operand within
the range of its field (R108). -/

namespace Sys2Proof

/-- A signed 32-bit constant (R88, R108). -/
def constantInRange (c : Int) : Bool := decide (-2147483648 ≤ c ∧ c ≤ 2147483647)

/-- An unsigned 32-bit address (R87, R108). -/
def addressInRange (a : Nat) : Bool := decide (a < 4294967296)

/-- An unsigned 8-bit register-index field (R89, R108). -/
def registerFieldInRange (r : Nat) : Bool := decide (r < 256)

/-- Every operand lies in its field's range (R108). -/
def Instr.wellFormed : Instr → Bool
  | .loadConst c r => constantInRange c && registerFieldInRange r
  | .loadMem a r => addressInRange a && registerFieldInRange r
  | .storeMem r a => registerFieldInRange r && addressInRange a
  | .geOp a b r => registerFieldInRange a && registerFieldInRange b && registerFieldInRange r
  | .addOp a b r => registerFieldInRange a && registerFieldInRange b && registerFieldInRange r
  | .subOp a b r => registerFieldInRange a && registerFieldInRange b && registerFieldInRange r

end Sys2Proof
end

