-- ==== Sys2Proof/Decode.lean ====
section
/-! DEFINITION. The opcode table, the decoder (total on any bytes, each rejection by name) and the
encoder. Both directions take opcodes, the order of the fields and their widths from the one table
`Mnemonic.opcode`, `Mnemonic.operands`, `Operand.width` (R47, R80). -/

namespace Sys2Proof

/-! ### The opcode table -/

/-- The rows of the table, in its order (R80). -/
def Mnemonic.all : List Mnemonic := [.loadConst, .loadMem, .storeMem, .geOp, .addOp, .subOp]

/-- The opcode byte (R80). -/
def Mnemonic.opcode : Mnemonic → Byte
  | .loadConst => 0x01
  | .loadMem => 0x02
  | .storeMem => 0x03
  | .geOp => 0x04
  | .addOp => 0x05
  | .subOp => 0x06

/-- The operand fields in declaration order (R80). -/
def Mnemonic.operands : Mnemonic → List Operand
  | .loadConst => [.constant, .destRegister]
  | .loadMem => [.address, .destRegister]
  | .storeMem => [.srcRegister, .address]
  | .geOp => [.regA, .regB, .regResult]
  | .addOp => [.regA, .regB, .regResult]
  | .subOp => [.regA, .regB, .regResult]

/-- The width of an operand field in bytes: four for a constant or an address, one for a register
index (R80). -/
def Operand.width : Operand → Nat
  | .constant => 4
  | .address => 4
  | .destRegister => 1
  | .srcRegister => 1
  | .regA => 1
  | .regB => 1
  | .regResult => 1

/-- The bytes of operands an instruction carries after its opcode byte (`L - 1` of R96). -/
def Mnemonic.operandBytes (m : Mnemonic) : Nat := (m.operands.map Operand.width).sum

/-- The length of an instruction in bytes (R90, R91). -/
def Mnemonic.length (m : Mnemonic) : Nat := 1 + m.operandBytes

/-- Opcode lookup: `none` for a byte that is no row's opcode (R93, R95). -/
def Mnemonic.ofOpcode (op : Byte) : Option Mnemonic := Mnemonic.all.find? fun m => m.opcode == op

/-- The row an instruction belongs to. -/
def Instr.mnemonic : Instr → Mnemonic
  | .loadConst _ _ => .loadConst
  | .loadMem _ _ => .loadMem
  | .storeMem _ _ => .storeMem
  | .geOp _ _ _ => .geOp
  | .addOp _ _ _ => .addOp
  | .subOp _ _ _ => .subOp

/-- The operand values in declaration order, as integers. -/
def Instr.values : Instr → List Int
  | .loadConst c r => [c, r]
  | .loadMem a r => [a, r]
  | .storeMem r a => [r, a]
  | .geOp a b r => [a, b, r]
  | .addOp a b r => [a, b, r]
  | .subOp a b r => [a, b, r]

/-- The instruction of a row with these operand values; `none` when they are not as many as the row has
operands. It undoes `Instr.mnemonic` and `Instr.values`. -/
def Instr.ofValues : Mnemonic → List Int → Option Instr
  | .loadConst, [c, r] => some (.loadConst c r.toNat)
  | .loadConst, _ => none
  | .loadMem, [a, r] => some (.loadMem a.toNat r.toNat)
  | .loadMem, _ => none
  | .storeMem, [r, a] => some (.storeMem r.toNat a.toNat)
  | .storeMem, _ => none
  | .geOp, [a, b, r] => some (.geOp a.toNat b.toNat r.toNat)
  | .geOp, _ => none
  | .addOp, [a, b, r] => some (.addOp a.toNat b.toNat r.toNat)
  | .addOp, _ => none
  | .subOp, [a, b, r] => some (.subOp a.toNat b.toNat r.toNat)
  | .subOp, _ => none

/-- The length of an instruction in bytes (R91). -/
def Instr.length (i : Instr) : Nat := i.mnemonic.length

/-! ### Byte order -/

/-- The number some bytes hold, the first the least significant (R86). -/
def leValue : List Byte → Nat
  | [] => 0
  | b :: bs => b.toNat + 256 * leValue bs

/-- The two's-complement reading of a 32-bit pattern (R12, R88). -/
def signed32 (u : Nat) : Int := if u < 2147483648 then (u : Int) else (u : Int) - 4294967296

/-- The low `w` bytes of a number, least significant first (R108). -/
def leBytes : (w : Nat) → Nat → List Byte
  | 0, _ => []
  | w + 1, n => BitVec.ofNat 8 n :: leBytes w (n / 256)

/-! ### The decoder -/

/-- Why a byte sequence starts with no whole instruction. -/
inductive DecodeError where
  /-- There is no opcode byte (R94). -/
  | noBytes
  /-- The opcode byte is none of the six (R93). -/
  | unknownOpcode (opcode : Byte)
  /-- The opcode is known and its operand bytes do not all exist (R96). -/
  | truncated (opcode : Byte) (needed available : Nat)
deriving DecidableEq, Repr

/-- The value of an operand field from its bytes: a constant in two's complement (R88), an address and a
register index unsigned (R87, R89). -/
def Operand.ofBytes (f : Operand) (bytes : List Byte) : Int :=
  match f with
  | .constant => signed32 (leValue bytes)
  | .address => leValue bytes
  | .destRegister => leValue bytes
  | .srcRegister => leValue bytes
  | .regA => leValue bytes
  | .regB => leValue bytes
  | .regResult => leValue bytes

/-- Bytes split into the values of operand fields, each as wide as the table says, with the bytes after
them; `none` when too few bytes are left (R82 to R85, R96). -/
def decodeFields : List Operand → List Byte → Option (List Int × List Byte)
  | [], bytes => some ([], bytes)
  | f :: fs, bytes =>
    if bytes.length < f.width then none
    else
      match decodeFields fs (bytes.drop f.width) with
      | none => none
      | some (values, rest) => some (f.ofBytes (bytes.take f.width) :: values, rest)

/-- The operand bytes of a row, split as its table entry says, as an instruction, with the bytes after
them; `none` when too few bytes are left (R96, R97). -/
def decodeOperands (m : Mnemonic) (bytes : List Byte) : Option (Instr × List Byte) :=
  match decodeFields m.operands bytes with
  | none => none
  | some (values, rest) => (Instr.ofValues m values).map fun i => (i, rest)

/-- The first instruction of a byte sequence and the bytes after it. Opcode lookup comes before the
length check (R94 to R97). -/
def decode : List Byte → Except DecodeError (Instr × List Byte)
  | [] => .error .noBytes
  | op :: rest =>
    match Mnemonic.ofOpcode op with
    | none => .error (.unknownOpcode op)
    | some m =>
      match decodeOperands m rest with
      | none => .error (.truncated op m.operandBytes rest.length)
      | some found => .ok found

/-! ### The encoder -/

/-- One operand field: the integer modulo `2^(8w)`, least significant byte first (R108, R122). -/
def encodeField (f : Operand) (n : Int) : List Byte :=
  leBytes f.width (n % ((256 ^ f.width : Nat) : Int)).toNat

/-- A row's opcode byte, then the operand values in declaration order (R108, R122). -/
def encodeRow (m : Mnemonic) (values : List Int) : List Byte :=
  m.opcode :: (m.operands.zip values).flatMap fun field => encodeField field.1 field.2

/-- The bytes of an instruction (R108). -/
def encode (i : Instr) : List Byte := encodeRow i.mnemonic i.values

/-! ### The host's view of one table row -/

/-- The bytes of the instruction whose bits are the low `nbits` of `w`, all higher bits zero: as many
as its opcode asks for, six when the opcode is unknown. Bit 0 is the least significant bit of the
first byte (R81). -/
def tableWordBytes (nbits w : Nat) : List Byte :=
  let six := leBytes 6 (w % 2 ^ nbits)
  match Mnemonic.ofOpcode (BitVec.ofNat 8 (w % 2 ^ nbits)) with
  | some m => six.take m.length
  | none => six

/-- The instruction the decoder reads from the low `nbits` bits of `w`. -/
def decodeTableWord (nbits w : Nat) : Option Instr :=
  match decode (tableWordBytes nbits w) with
  | .ok (i, _) => some i
  | .error _ => none

end Sys2Proof
end

