-- ==== Sys2Proof/Config.lean ====
section
/-! DEFINITION. The implementation parameters of R10. The spec decides every value it leaves to the
implementation (93_implementation_defined.md), so no free value stands here. -/

namespace Sys2Proof.Config

/-- `NREG`, the number of general registers (R10, R20). -/
abbrev numReg : Nat := 32

/-- `NMEM`, the number of data-memory cells (R10, R50). -/
abbrev numMem : Nat := 1024

/-- `TRACE_REGS`, the registers a trace record shows (R10, R187). -/
abbrev traceRegs : Nat := 10

/-- The two values of `ADDR_POLICY`, the treatment of an out-of-range memory address (R35, R56, D3). -/
inductive AddrPolicy where
  /-- An address of 1024 or more faults: the baseline. -/
  | reject
  /-- An address is taken modulo 1024: the configured relaxation. -/
  | mask
deriving DecidableEq, Repr

/-- `ADDR_POLICY` where the host configures none (R35, R201). -/
abbrev defaultPolicy : AddrPolicy := .reject

end Sys2Proof.Config
end

