-- ==== Sys2Proof/Machine/State.lean ====
section
/-! DEFINITION. Everything the spec gives the block to hold (R19 to R41), as plain data, the state
right after reset, and the reasons a step can stop. -/

namespace Sys2Proof.Machine

open Sys2Proof.Config

/-- The data memory in canonical form: pairs of a cell index and its value, indices strictly rising,
no entry equal to what an unlisted cell reads as. The unit is the whole 32-bit cell, since the data
memory has no byte view (R50, R59; log 6). -/
abbrev Memory := List (Nat × Word)

/-- What a cell no entry lists reads as: the reset value of a memory cell (R38, R41). -/
abbrev unlistedCell : Word := 0

/-- The causes of a fault with their details (R172 to R178). -/
inductive FaultCause where
  /-- The byte fetched as an opcode is none of the six (R172). -/
  | unknownOpcode (opcode : Byte)
  /-- A known opcode whose operand bytes run past the end of the program (R176). -/
  | truncatedInstruction (opcode : Byte) (needed available : Nat)
  /-- A register-index field that names no register (R173). -/
  | registerIndexOutOfRange (operand : Operand) (value : Nat)
  /-- Under `Reject`, an address field that names no memory cell (R177). -/
  | memoryIndexOutOfRange (operand : Operand) (value : Nat)
  /-- The configured observation range is illegal (R174). -/
  | invalidObservationRange (start stop : Nat)
deriving DecidableEq, Repr

/-- The fault record: the cause with its detail, and where the fault arose. Its `code` is computed from
the cause, by `FaultRecord.code` (R171, R178; log 5). -/
structure FaultRecord where
  cause : FaultCause
  /-- The byte offset of the faulting instruction's opcode byte. -/
  pc : Nat
  /-- The index of the faulting instruction, counting from 0. -/
  icount : Nat
deriving DecidableEq, Repr

/-- The run status (R36). -/
inductive Status where
  | running
  | halted
  | faulted (f : FaultRecord)
deriving DecidableEq, Repr

/-- One trace record: the observed cells with their indices, `x[0..9]`, the accumulator (R187). -/
structure TraceRecord where
  cells : List (Nat × Word)
  regs : Vector Word traceRegs
  acc : Word
deriving DecidableEq, Repr

/-- The state of the block and the parameters of its run. -/
structure State where
  /-- The program store; its length is `N` (R39). -/
  program : List Byte
  /-- `OBS_START` (R35). -/
  obsStart : Nat
  /-- `OBS_END` (R35). -/
  obsEnd : Nat
  /-- `ADDR_POLICY` (R35). -/
  addrPolicy : AddrPolicy
  /-- `x[0] .. x[31]` (R20). -/
  regs : Vector Word numReg
  /-- The data memory (R38, R50). -/
  mem : Memory
  /-- The accumulator (R32). -/
  acc : Word
  /-- The program counter, a byte offset (R28). -/
  pc : Nat
  /-- The count of instructions retired (R37). -/
  icount : Nat
  /-- The run status, with the fault record of a faulted run (R36). -/
  status : Status
  /-- The trace buffer, oldest record first (R40, R186). -/
  trace : List TraceRecord
deriving DecidableEq, Repr

/-- The block right after reset (R41, R200). The program and the observation range are the host's to
supply: here the program is empty and the range is 0:0, both DESIGN CHOICES (log 2, log 3). -/
def State.reset : State where
  program := []
  obsStart := 0
  obsEnd := 0
  addrPolicy := defaultPolicy
  regs := Vector.replicate numReg 0
  mem := []
  acc := 0
  pc := 0
  icount := 0
  status := .running
  trace := []

/-- Why a step has no next state. No instruction's meaning stops: these are the sequencer's own. -/
inductive Fault where
  /-- Raised by `step` when the run has halted: `Halted` is final and no further step runs (R36, R103).
  Safe: nothing can be proved of a state after the end. -/
  | runHalted
  /-- Raised by `step` when the run has faulted: `Faulted(f)` is final and no further step runs (R36,
  R170). Safe, as above. -/
  | runFaulted (f : FaultRecord)
  /-- Raised by `step` when `pc > N`, where there is no byte to fetch and which no run reaches (R28, R30;
  log 7). Safe: the machine stops. -/
  | pcPastEnd
deriving DecidableEq, Repr

/-- Why an instruction has no meaning. -/
inductive Refusal where
  /-- Raised by `exec` for an instruction without a meaning: none is left. Safe. -/
  | notModelled (mnemonic : String)
deriving DecidableEq, Repr

/-- What one step or one instruction answers. -/
abbrev Result := Host.Outcome State Fault Refusal

end Sys2Proof.Machine
end

