-- ==== Sys2Proof/Machine/Ops.lean ====
section
/-! DEFINITION. The named operations over registers, memory, accumulator and trace, the retirement of
an instruction, and the one way a fault is taken. -/

namespace Sys2Proof.Machine

open Sys2Proof.Config

/-! ### Registers and accumulator -/

/-- `x[r]` (R13, R20). -/
def State.readReg (s : State) (r : Fin numReg) : Word := s.regs[r]

/-- `x[r] <- v` (R13, R20). No register is hard-wired (R21). -/
def State.writeReg (s : State) (r : Fin numReg) (v : Word) : State :=
  { s with regs := s.regs.set r v }

/-- `acc <- v` (R13, R32). -/
def State.writeAcc (s : State) (v : Word) : State := { s with acc := v }

/-! ### Data memory -/

/-- The value of cell `k`; a cell nothing lists holds its reset value (R41, R53). -/
def Memory.read : Memory → Nat → Word
  | [], _ => unlistedCell
  | (k, v) :: rest, a => if k = a then v else Memory.read rest a

/-- Sets cell `a` to `v` and keeps the canonical form (R54). -/
def Memory.write : Memory → Nat → Word → Memory
  | [], a, v => if v = unlistedCell then [] else [(a, v)]
  | (k, w) :: rest, a, v =>
    if a < k then (if v = unlistedCell then (k, w) :: rest else (a, v) :: (k, w) :: rest)
    else if a = k then (if v = unlistedCell then rest else (a, v) :: rest)
    else (k, w) :: Memory.write rest a v

/-- The canonical form: indices strictly rising and inside the memory, no entry a cell at its reset
value (R50; log 6). -/
abbrev Memory.wf (m : Memory) : Prop :=
  m.Pairwise (fun p q => p.1 < q.1) ∧ ∀ p ∈ m, p.1 < numMem ∧ p.2 ≠ unlistedCell

/-- `MemRead(k, 1)` (R53). -/
def State.memRead (s : State) (k : Fin numMem) : Word := s.mem.read k

/-- `MemWrite(k, 1, v)` (R54). -/
def State.memWrite (s : State) (k : Fin numMem) (v : Word) : State :=
  { s with mem := s.mem.write k v }

/-! ### The trace port -/

/-- The pairs `(k, cell k)` for `k` from `OBS_START` to `OBS_END` inclusive (R187). -/
def State.observedCells (s : State) : List (Nat × Word) :=
  (List.range' s.obsStart (s.obsEnd + 1 - s.obsStart)).map fun k => (k, s.mem.read k)

/-- `x[0] .. x[9]` (R187). -/
def State.observedRegs (s : State) : Vector Word traceRegs :=
  Vector.ofFn fun i : Fin traceRegs => s.readReg (i.castLE (by decide))

/-- The trace record of a state (R187). -/
def State.traceRecord (s : State) : TraceRecord := ⟨s.observedCells, s.observedRegs, s.acc⟩

/-- Appends the record of this state to the trace buffer (R186). -/
def State.emitTrace (s : State) : State := { s with trace := s.trace ++ [s.traceRecord] }

/-! ### Retirement, halt and fault -/

/-- `pc <- pc + len` and `icount <- icount + 1` (R29, R37). -/
def State.advance (s : State) (len : Nat) : State :=
  { s with pc := s.pc + len, icount := s.icount + 1 }

/-- The retirement of an instruction of row `m`, after its writes (R100, R186). -/
def State.retire (s : State) (m : Mnemonic) : State := (s.advance m.length).emitTrace

/-- Normal halt: the status changes and nothing else does (R98). -/
def State.halt (s : State) : State := { s with status := .halted }

/-- Taking a fault, the one operation for all five causes: the status becomes `Faulted(f)`, where `f`
holds the cause with its detail and the `pc` and `icount` of the faulting instruction. Nothing else
changes, control goes nowhere and nothing returns from it (R100, R170, R171, R175, R182, R183). -/
def State.raise (s : State) (cause : FaultCause) : State :=
  { s with status := .faulted ⟨cause, s.pc, s.icount⟩ }

/-- The code of a cause (R178). -/
def FaultCause.code : FaultCause → Nat
  | .unknownOpcode _ => 1
  | .truncatedInstruction _ _ _ => 2
  | .registerIndexOutOfRange _ _ => 3
  | .memoryIndexOutOfRange _ _ => 4
  | .invalidObservationRange _ _ => 5

/-- The name of a cause, the `cause` field of a fault record (R171, R178). -/
def FaultCause.name : FaultCause → String
  | .unknownOpcode _ => "UnknownOpcode"
  | .truncatedInstruction _ _ _ => "TruncatedInstruction"
  | .registerIndexOutOfRange _ _ => "RegisterIndexOutOfRange"
  | .memoryIndexOutOfRange _ _ => "MemoryIndexOutOfRange"
  | .invalidObservationRange _ _ => "InvalidObservationRange"

/-- The name of an operand field, as a fault's detail gives it (R80, R173, R177). -/
def operandName : Operand → String
  | .constant => "constant"
  | .address => "address"
  | .destRegister => "dest_register"
  | .srcRegister => "src_register"
  | .regA => "reg_a"
  | .regB => "reg_b"
  | .regResult => "reg_result"

/-- The code field of a fault record (R171). -/
def FaultRecord.code (f : FaultRecord) : Nat := f.cause.code

end Sys2Proof.Machine
end

