-- ==== Sys2Proof/Machine/Operands.lean ====
section
/-! DEFINITION. Operand validation, the address translator and the reading of words as integers. -/

namespace Sys2Proof.Machine

open Sys2Proof.Config

/-- `signed_W(v)`, the two's-complement reading of a word (R12, R150). -/
def signedW (v : Word) : Int := v.toInt

/-- `trunc_W(n)`, an integer modulo `2^32` as a word (R13, R150). On a constant of 32 bits it is
`sext_W`: the bits unchanged (R88, R130). -/
def truncW (n : Int) : Word := BitVec.ofInt 32 n

/-- The check of one register-index field, never masked or clamped (R26, R99). -/
def checkReg (field : Operand) (value : Nat) : Except FaultCause (Fin numReg) :=
  if h : value < numReg then .ok ⟨value, h⟩ else .error (.registerIndexOutOfRange field value)

/-- `Translate(a)`: the cell an address field names under the address policy, or the fault (R56). -/
def translate (policy : AddrPolicy) (a : Nat) : Except FaultCause (Fin numMem) :=
  match policy with
  | .reject => if h : a < numMem then .ok ⟨a, h⟩ else .error (.memoryIndexOutOfRange .address a)
  | .mask => .ok (Fin.ofNat numMem a)

/-- Goes on with the register a field names, or takes the fault (R99). -/
def State.withReg (s : State) (field : Operand) (value : Nat) (go : Fin numReg → Result) : Result :=
  match checkReg field value with
  | .ok r => go r
  | .error cause => .next (s.raise cause)

/-- Goes on with the cell an address field names, or takes the fault (R99). -/
def State.withCell (s : State) (a : Nat) (go : Fin numMem → Result) : Result :=
  match translate s.addrPolicy a with
  | .ok k => go k
  | .error cause => .next (s.raise cause)

end Sys2Proof.Machine
end

