-- ==== Sys2Proof/Machine/Flags.lean ====
section
/-! DEFINITION. The block has no flags, condition codes or predicates (R31). The one condition it
computes, signed greater-or-equal, is a word written to a general register (R46, R151). -/

namespace Sys2Proof.Machine

/-- `GE`: word 1 when `a >= b` as signed integers, else word 0 (R46, R151). -/
def aluGe (a b : Word) : Word := if signedW a ≥ signedW b then 1 else 0

end Sys2Proof.Machine
end

