-- ==== Sys2Proof/Machine/Alu.lean ====
section
/-! DEFINITION. The ALU and the meanings of GE_OP, ADD_OP and SUB_OP. -/

namespace Sys2Proof.Machine

/-- `ADD`: the sum modulo `2^32`, no carry and no trap (R46, R150, R155). -/
def aluAdd (a b : Word) : Word := truncW (signedW a + signedW b)

/-- `SUB`: the difference modulo `2^32`, minuend first (R46, R150, R158). -/
def aluSub (a b : Word) : Word := truncW (signedW a - signedW b)

/-- The shape the three share: validate the operands in declaration order, read both sources, write
the result, retire (R14, R99, R100, R207). -/
def State.aluOp (s : State) (m : Mnemonic) (f : Word → Word → Word) (regA regB regResult : Nat) :
    Result :=
  s.withReg .regA regA fun a =>
    s.withReg .regB regB fun b =>
      s.withReg .regResult regResult fun r =>
        .next ((s.writeReg r (f (s.readReg a) (s.readReg b))).retire m)

/-- GE_OP (R151, R152). -/
def execGeOp (regA regB regResult : Nat) (s : State) : Result :=
  s.aluOp .geOp aluGe regA regB regResult

/-- ADD_OP (R155, R156). -/
def execAddOp (regA regB regResult : Nat) (s : State) : Result :=
  s.aluOp .addOp aluAdd regA regB regResult

/-- SUB_OP (R158, R159). -/
def execSubOp (regA regB regResult : Nat) (s : State) : Result :=
  s.aluOp .subOp aluSub regA regB regResult

end Sys2Proof.Machine
end

