-- ==== Sys2Proof/Machine/DataMovement.lean ====
section
/-! DEFINITION. The meanings of LOAD_CONST, LOAD_MEM and STORE_MEM. Operands are validated in
declaration order before anything is written (R99), then the instruction executes and retires
(R100). -/

namespace Sys2Proof.Machine

open Sys2Proof.Config

/-- A load's writes: the accumulator and the destination get the same value (R130, R134). -/
def State.load (s : State) (r : Fin numReg) (v : Word) : State := (s.writeAcc v).writeReg r v

/-- LOAD_CONST (R130, R131). -/
def execLoadConst (constant : Int) (destRegister : Nat) (s : State) : Result :=
  s.withReg .destRegister destRegister fun r =>
    .next ((s.load r (truncW constant)).retire .loadConst)

/-- LOAD_MEM (R134, R135). -/
def execLoadMem (address destRegister : Nat) (s : State) : Result :=
  s.withCell address fun k =>
    s.withReg .destRegister destRegister fun r =>
      .next ((s.load r (s.memRead k)).retire .loadMem)

/-- STORE_MEM (R138, R139). -/
def execStoreMem (srcRegister address : Nat) (s : State) : Result :=
  s.withReg .srcRegister srcRegister fun r =>
    s.withCell address fun k =>
      .next ((s.memWrite k (s.readReg r)).retire .storeMem)

end Sys2Proof.Machine
end

