-- ==== Sys2Proof/Machine/Dispatch.lean ====
section
/-! DEFINITION. One arm per instruction. -/

namespace Sys2Proof.Machine

/-- The meaning of a decoded instruction in a running state: it retires or takes a fault (R99, R100). -/
def exec (i : Instr) (s : State) : Host.Outcome State Fault Refusal :=
  match i with
  | .loadConst c r => Sys2Proof.Machine.execLoadConst c r s
  | .loadMem a r => Sys2Proof.Machine.execLoadMem a r s
  | .storeMem r a => Sys2Proof.Machine.execStoreMem r a s
  | .geOp a b r => Sys2Proof.Machine.execGeOp a b r s
  | .addOp a b r => Sys2Proof.Machine.execAddOp a b r s
  | .subOp a b r => Sys2Proof.Machine.execSubOp a b r s

end Sys2Proof.Machine
end

