-- ==== Sys2Proof/Machine/Fetch.lean ====
section
/-! DEFINITION. Opcode fetch, opcode lookup and operand fetch at the program counter, and the placing
of an instruction there for the host. -/

namespace Sys2Proof.Machine

/-- What the fetch of a running block finds. -/
inductive Fetched where
  /-- `pc = N`: the run halts (R98). -/
  | endOfStream
  /-- A whole instruction (R97). -/
  | instr (i : Instr)
  /-- An unknown opcode or missing operand bytes (R95, R96). -/
  | raises (cause : FaultCause)
  /-- `pc > N`, which no run reaches (R30; log 7). -/
  | outside
deriving DecidableEq, Repr

/-- Fetch at the program counter (R94 to R97). -/
def State.fetch (s : State) : Fetched :=
  if s.pc = s.program.length then .endOfStream
  else
    match decode (s.program.drop s.pc) with
    | .ok (i, _) => .instr i
    | .error .noBytes => .outside
    | .error (.unknownOpcode op) => .raises (.unknownOpcode op)
    | .error (.truncated op needed available) =>
      .raises (.truncatedInstruction op needed available)

/-- The same state, running, with these bytes in the program store from the program counter on (log 9).
Bytes before the counter stay (zeros fill a gap before it), and so do the bytes after the placed
ones. -/
def State.placeAtPc (s : State) (bytes : List Byte) : State :=
  { s with
    status := .running
    program := s.program.take s.pc ++ List.replicate (s.pc - s.program.length) 0 ++ bytes
      ++ s.program.drop (s.pc + bytes.length) }

end Sys2Proof.Machine
end

