-- ==== Sys2Proof/Machine/Step.lean ====
section
/-! DEFINITION. One step of the sequencer. -/

namespace Sys2Proof.Machine

/-- One step (R101). A run that is over takes no further step (R36, R103, R170; log 1). -/
def step (s : State) : Host.Outcome State Fault Refusal :=
  match s.status with
  | .halted => .fault .runHalted
  | .faulted f => .fault (.runFaulted f)
  | .running =>
    match s.fetch with
    | .endOfStream => .next s.halt
    | .instr i => exec i s
    | .raises cause => .next (s.raise cause)
    | .outside => .fault .pcPastEnd

/-- The state with the instruction whose bits are `w` stored where `step` fetches next, and running. -/
def State.withFetchWord (s : State) (nbits w : Nat) : State := s.placeAtPc (tableWordBytes nbits w)

end Sys2Proof.Machine
end

