-- ==== Sys2Proof/Machine/Assembler.lean ====
section
/-! DEFINITION. The assembler of R115 to R125. The scope file puts it outside the block (R8); it is here
because it shares the block's opcode table (R47) and the spec states it in full. The text is a list of
characters; the writing of the build log as JSON text is not modelled (log 10, log 11). -/

namespace Sys2Proof.Machine

/-- The spelling of a mnemonic (R80). -/
def mnemonicText : Mnemonic → String
  | .loadConst => "LOAD_CONST"
  | .loadMem => "LOAD_MEM"
  | .storeMem => "STORE_MEM"
  | .geOp => "GE_OP"
  | .addOp => "ADD_OP"
  | .subOp => "SUB_OP"

/-- The key of an operand in a build-log entry (R123, D21). -/
def logKey : Operand → String
  | .constant => "constant"
  | .address => "address"
  | .destRegister => "register"
  | .srcRegister => "register"
  | .regA => "reg_a"
  | .regB => "reg_b"
  | .regResult => "reg_result"

/-- One entry of the build log (R123). -/
structure LogEntry where
  command : Mnemonic
  opcode : Nat
  operands : List (String × Int)
deriving DecidableEq, Repr

/-- The line-local errors (R118 to R120). -/
inductive AsmError where
  | unknownInstruction
  | missingArguments
  | malformedOperand
deriving DecidableEq, Repr

/-- What one source line comes to. -/
inductive AsmLine where
  /-- An empty line or a comment (R115). -/
  | skipped
  /-- No bytes and no log entry (R118 to R120). -/
  | failed (e : AsmError)
  /-- Bytes and a log entry (R123). -/
  | emitted (bytes : List Byte) (entry : LogEntry)
deriving DecidableEq, Repr

/-- The lines of a text, split at each line feed (R115). -/
def splitLines : List Char → List (List Char)
  | [] => [[]]
  | c :: cs =>
    if c = '\n' then [] :: splitLines cs
    else
      match splitLines cs with
      | [] => [[c]]
      | line :: lines => (c :: line) :: lines

/-- The white-space-separated tokens of a line; `pending` is the token being read, reversed (R116). -/
def splitTokens (pending : List Char) : List Char → List (List Char)
  | [] => if pending = [] then [] else [pending.reverse]
  | c :: cs =>
    if c.isWhitespace then
      if pending = [] then splitTokens [] cs else pending.reverse :: splitTokens [] cs
    else splitTokens (c :: pending) cs

/-- A case-sensitive mnemonic (R116). -/
def parseMnemonic (token : List Char) : Option Mnemonic :=
  Mnemonic.all.find? fun m => (mnemonicText m).toList == token

/-- One or more decimal digits, most significant first (R120, D15). -/
def parseDigits (token : List Char) : Option Nat :=
  if token ≠ [] ∧ token.all Char.isDigit then
    some (token.foldl (fun n c => 10 * n + (c.toNat - '0'.toNat)) 0)
  else none

/-- A decimal literal with an optional sign (R120, D15). -/
def parseLiteral : List Char → Option Int
  | '+' :: digits => (parseDigits digits).map Int.ofNat
  | '-' :: digits => (parseDigits digits).map fun n : Nat => -Int.ofNat n
  | digits => (parseDigits digits).map Int.ofNat

/-- The operands of a line whose mnemonic is known: the first `arity` tokens, the rest ignored (R119 to
R123). DESIGN CHOICE (log 11): a line gets one error, however many of its tokens are malformed, and a line
with too few tokens is not looked at for malformed ones; the log entry shows the literals as parsed. -/
def assembleOperands (m : Mnemonic) (tokens : List (List Char)) : AsmLine :=
  if tokens.length < m.operands.length then .failed .missingArguments
  else
    match (tokens.take m.operands.length).mapM parseLiteral with
    | none => .failed .malformedOperand
    | some values =>
      .emitted (encodeRow m values) ⟨m, m.opcode.toNat, (m.operands.map logKey).zip values⟩

/-- One source line (R115 to R124). -/
def assembleLine (line : List Char) : AsmLine :=
  match splitTokens [] line with
  | [] => .skipped
  | token :: tokens =>
    if token.head? = some '#' then .skipped
    else
      match parseMnemonic token with
      | none => .failed .unknownInstruction
      | some m => assembleOperands m tokens

/-- The outputs of a run of the assembler: the binary, the build log, and each error with the number of
its line, counting from 1 (R123, R125). -/
structure Assembly where
  binary : List Byte
  log : List LogEntry
  errors : List (Nat × AsmError)
deriving DecidableEq, Repr

/-- The lines of a text from line `n` on; an error never stops assembly (R125). -/
def assembleLines (n : Nat) : List (List Char) → Assembly
  | [] => ⟨[], [], []⟩
  | line :: lines =>
    let rest := assembleLines (n + 1) lines
    match assembleLine line with
    | .skipped => rest
    | .failed e => { rest with errors := (n, e) :: rest.errors }
    | .emitted bytes entry =>
      { rest with binary := bytes ++ rest.binary, log := entry :: rest.log }

/-- The assembler (R115 to R125). -/
def assemble (text : List Char) : Assembly := assembleLines 1 (splitLines text)

end Sys2Proof.Machine
end

