-- ==== Sys2Proof/Machine/Interface.lean ====
section
/-! DEFINITION. The transactions between the host and the block: what the host supplies before a run,
the run sequence up to the first step, and what the host reads (R42 to R44, R201). -/

namespace Sys2Proof.Machine

open Sys2Proof.Config

/-- What the host supplies before a run: the program, the observation range and, if it likes, the
address policy (R42). -/
structure HostInput where
  program : List Byte
  obsStart : Nat
  obsEnd : Nat
  addrPolicy : Option AddrPolicy
deriving DecidableEq, Repr

/-- A legal observation range (R35, R174). -/
abbrev rangeLegal (obsStart obsEnd : Nat) : Prop := obsStart ≤ obsEnd ∧ obsEnd < numMem

/-- Reset under a configuration (R41, R200; step 2 of R201). -/
def State.resetWith (h : HostInput) : State :=
  { State.reset with
    program := h.program
    obsStart := h.obsStart
    obsEnd := h.obsEnd
    addrPolicy := h.addrPolicy.getD defaultPolicy }

/-- The state in which the first step runs: reset, then the one check of the observation range
(R102, R174, R201). -/
def State.start (h : HostInput) : State :=
  if rangeLegal h.obsStart h.obsEnd then State.resetWith h
  else (State.resetWith h).raise (.invalidObservationRange h.obsStart h.obsEnd)

/-- The block's observation of a run: the trace, the status and the final state (R19, R44). -/
structure Observation where
  trace : List TraceRecord
  status : Status
  regs : Vector Word numReg
  mem : Memory
  acc : Word
deriving DecidableEq, Repr

/-- What the host reads (R19, R43, R44). -/
def State.observation (s : State) : Observation := ⟨s.trace, s.status, s.regs, s.mem, s.acc⟩

/-- The diagnostic of a run: the fault record of a faulted run, and none otherwise (R44, R175). -/
def State.diagnostic (s : State) : Option FaultRecord :=
  match s.status with
  | .faulted f => some f
  | .running => none
  | .halted => none

end Sys2Proof.Machine
end

