-- ==== Sys2Proof/Safety.lean ====
section
/-! DEFINITION. The terms the statements use: the invariant of the machine, the end of a run, what
retiring and faulting look like field by field, the instructions that break no check. -/

namespace Sys2Proof.Machine

/-- What holds of the block in every state that a run reaches. -/
structure State.Inv (s : State) : Prop where
  /-- The memory is in its canonical form (log 6). -/
  memoryCanonical : s.mem.wf
  /-- `pc` lies in `[0, N]` (R28). -/
  pcInProgram : s.pc ≤ s.program.length
  /-- Every retired instruction took at least four bytes (R92). -/
  pcPaysForInstructions : 4 * s.icount ≤ s.pc
  /-- One trace record per retired instruction (R189). -/
  recordPerInstruction : s.trace.length = s.icount
  /-- Each record shows every cell of the observation range (R187). -/
  recordsWholeRange : ∀ r ∈ s.trace,
    r.cells.map Prod.fst = List.range' s.obsStart (s.obsEnd + 1 - s.obsStart)
  /-- No step runs under an illegal observation range (R102). -/
  rangeChecked : s.status = .running → rangeLegal s.obsStart s.obsEnd
  /-- A halted run has consumed its program (R98). -/
  haltedAtEnd : s.status = .halted → s.pc = s.program.length
  /-- A fault record names the place the run stopped at (R171, R179). -/
  faultHere : ∀ f, s.status = .faulted f → f.pc = s.pc ∧ f.icount = s.icount

/-- The run from `s` is over, in state `t`, after `k` steps: `Halted` or `Faulted` (R17). -/
def EndsAfter (s : State) (k : Nat) (t : State) : Prop :=
  Sys2Proof.core.run k s = .next t ∧ t.status ≠ .running

/-- The run from `s` halts normally (R98). -/
def HaltsNormally (s : State) : Prop :=
  ∃ k t, EndsAfter s k t ∧ t.status = .halted

/-- The instruction stored at the program counter (R94 to R97). -/
def DecodesAt (s : State) (i : Instr) : Prop :=
  ∃ rest, decode (s.program.drop s.pc) = .ok (i, rest)

/-- `i` completes in `s`: its own writes give `u`, then `pc` grows by `len`, `icount` by one, and the
trace by the record of `u` (R100, R186). -/
def Retires (i : Instr) (s u : State) (len : Nat) : Prop :=
  exec i s = .next { u with
    pc := s.pc + len
    icount := s.icount + 1
    trace := s.trace ++ [u.traceRecord] }

/-- The state a fault leaves: the record in the status, everything else as it was (R170, R171, R175). -/
def faultedAt (s : State) (cause : FaultCause) : State :=
  { s with status := .faulted ⟨cause, s.pc, s.icount⟩ }

/-- No operand of the instruction fails validation: every register field below 32 and, under `Reject`,
every address below 1024 (R99; the conditions (b) and (c) of R205). -/
def PassesValidation (policy : Config.AddrPolicy) : Instr → Prop
  | .loadConst _ r => r < 32
  | .loadMem a r => (policy = .reject → a < 1024) ∧ r < 32
  | .storeMem r a => r < 32 ∧ (policy = .reject → a < 1024)
  | .geOp a b r => a < 32 ∧ b < 32 ∧ r < 32
  | .addOp a b r => a < 32 ∧ b < 32 ∧ r < 32
  | .subOp a b r => a < 32 ∧ b < 32 ∧ r < 32

end Sys2Proof.Machine
end

