-- ==== Sys2Proof/Certificates/Slice0/Obligations.lean ====
section
/-! DEFINITION. The statements about this model. -/

open Sys2Proof Sys2Proof.Machine

/-! ### Encoding and decoding -/

/-- The twelve encodings that section 2.1 of 95_test_vectors.md lists decode to their instructions. -/
def Obligations.SpecWordsDecode : Prop :=
  decode [0x01, 0x05, 0x00, 0x00, 0x00, 0x00] = .ok (.loadConst 5 0, []) ∧
  decode [0x01, 0x00, 0x00, 0x00, 0x80, 0x00] = .ok (.loadConst (-2147483648) 0, []) ∧
  decode [0x01, 0xFF, 0xFF, 0xFF, 0x7F, 0x1F] = .ok (.loadConst 2147483647 31, []) ∧
  decode [0x01, 0xFF, 0xFF, 0xFF, 0xFF, 0x1F] = .ok (.loadConst (-1) 31, []) ∧
  decode [0x02, 0x07, 0x00, 0x00, 0x00, 0x04] = .ok (.loadMem 7 4, []) ∧
  decode [0x02, 0xFF, 0x03, 0x00, 0x00, 0x04] = .ok (.loadMem 1023 4, []) ∧
  decode [0x02, 0xFF, 0xFF, 0xFF, 0xFF, 0x02] = .ok (.loadMem 4294967295 2, []) ∧
  decode [0x03, 0x03, 0xFF, 0x03, 0x00, 0x00] = .ok (.storeMem 3 1023, []) ∧
  decode [0x03, 0x00, 0x00, 0x04, 0x00, 0x00] = .ok (.storeMem 0 1024, []) ∧
  decode [0x04, 0x04, 0x03, 0x05] = .ok (.geOp 4 3 5, []) ∧
  decode [0x05, 0x00, 0x00, 0x01] = .ok (.addOp 0 0 1, []) ∧
  decode [0x06, 0x01, 0x00, 0x02] = .ok (.subOp 1 0 2, [])

/-- R108: the bytes of an instruction are the opcode byte and then each field in declaration order, a
32-bit field as four bytes with the least significant first and a register field as one byte; and
decoding the bytes of any well-formed instruction, whatever bytes follow, gives it back with every
operand. -/
def Obligations.EncodingRoundTrip : Prop :=
  (∀ c r, encode (.loadConst c r) = [0x01, BitVec.ofInt 8 c, BitVec.ofInt 8 (c / 256),
    BitVec.ofInt 8 (c / 65536), BitVec.ofInt 8 (c / 16777216), BitVec.ofNat 8 r]) ∧
  (∀ a r, encode (.loadMem a r) = [0x02, BitVec.ofNat 8 a, BitVec.ofNat 8 (a / 256),
    BitVec.ofNat 8 (a / 65536), BitVec.ofNat 8 (a / 16777216), BitVec.ofNat 8 r]) ∧
  (∀ r a, encode (.storeMem r a) = [0x03, BitVec.ofNat 8 r, BitVec.ofNat 8 a,
    BitVec.ofNat 8 (a / 256), BitVec.ofNat 8 (a / 65536), BitVec.ofNat 8 (a / 16777216)]) ∧
  (∀ a b r, encode (.geOp a b r) = [0x04, BitVec.ofNat 8 a, BitVec.ofNat 8 b, BitVec.ofNat 8 r]) ∧
  (∀ a b r, encode (.addOp a b r) = [0x05, BitVec.ofNat 8 a, BitVec.ofNat 8 b, BitVec.ofNat 8 r]) ∧
  (∀ a b r, encode (.subOp a b r) = [0x06, BitVec.ofNat 8 a, BitVec.ofNat 8 b, BitVec.ofNat 8 r]) ∧
  (∀ i rest, i.wellFormed = true → decode (encode i ++ rest) = .ok (i, rest))

/-- The other direction: what the decoder accepts is well-formed and is the encoding of what it answers,
so each byte sequence has one reading and no bit of it is dropped (R81, R89, R105, R107). -/
def Obligations.DecodedBytesAreTheEncoding : Prop :=
  ∀ bytes i rest, decode bytes = .ok (i, rest) → i.wellFormed = true ∧ bytes = encode i ++ rest

/-- R90: the opcode byte alone decides the length, 6 for 0x01 to 0x03 and 4 for 0x04 to 0x06; with that
many bytes there the decoder takes exactly them, and no other opcode byte decodes. -/
def Obligations.OpcodeDecidesLength : Prop :=
  ∀ (op : Byte) (bytes : List Byte) (len : Nat),
    (((1 ≤ op.toNat ∧ op.toNat ≤ 3) ∧ len = 6) ∨ ((4 ≤ op.toNat ∧ op.toNat ≤ 6) ∧ len = 4) →
      (len ≤ (op :: bytes).length ↔ ∃ i, decode (op :: bytes) = .ok (i, (op :: bytes).drop len)) ∧
      ∀ i rest, decode (op :: bytes) = .ok (i, rest) → (op :: bytes).length = len + rest.length) ∧
    ((op.toNat = 0 ∨ 7 ≤ op.toNat) → ∀ i rest, decode (op :: bytes) ≠ .ok (i, rest))

/-- R88: the constant field is its little-endian value read as two's complement, and the value loaded is
the field's 32 bits unchanged. Two's complement and W = 32 are the spec's own decision D1. -/
def Obligations.ConstantIsTwosComplement : Prop :=
  ∀ b0 b1 b2 b3 r : Byte, ∀ rest : List Byte,
    let u := b0.toNat + 256 * b1.toNat + 65536 * b2.toNat + 16777216 * b3.toNat
    ∃ c : Int, decode (0x01 :: b0 :: b1 :: b2 :: b3 :: r :: rest) = .ok (.loadConst c r.toNat, rest) ∧
      c = (if u < 2147483648 then (u : Int) else (u : Int) - 4294967296) ∧
      -2147483648 ≤ c ∧ c ≤ 2147483647 ∧
      ∀ (h : r.toNat < 32) (s : State),
        Retires (.loadConst c r.toNat) s
          { s with acc := BitVec.ofNat 32 u, regs := s.regs.set r.toNat (BitVec.ofNat 32 u) } 6

/-! ### The step -/

/-- When the bytes at the program counter of a running block decode to an instruction, the step is that
instruction's meaning and nothing around it: `pc`, `icount` and the trace are moved by the meaning's own
retirement (R101). -/
def Obligations.StepExecutesDecoded : Prop :=
  ∀ s i, s.status = .running → DecodesAt s i → step s = exec i s

/-- R93, R95, R172: in a running block the byte at the program counter, if it is none of 0x01 to 0x06,
raises UnknownOpcode (code 1) whatever bytes follow it, and no other byte does. The unchanged state and
the record's pc and icount are R100, R101 and R171. The code's number is the spec's decision D6 (log 4).
-/
def Obligations.UnknownOpcodeFaults : Prop :=
  (∀ (s : State) (op : Byte), s.status = .running → s.program[s.pc]? = some op →
    ((op.toNat = 0 ∨ 7 ≤ op.toNat) ↔ step s = .next (faultedAt s (.unknownOpcode op)))) ∧
  ∀ op, (FaultCause.unknownOpcode op).code = 1

/-- R96, R176: in a running block a known opcode raises TruncatedInstruction (code 2) exactly when its
operand bytes run past the end of the program; the record says how many are needed and how many exist.
The unchanged state and the record's pc and icount are R100, R101 and R171. The code's number is the
spec's decision D6 (log 4). -/
def Obligations.TruncationFaults : Prop :=
  (∀ (s : State) (op : Byte) (len : Nat), s.status = .running → s.program[s.pc]? = some op →
    ((1 ≤ op.toNat ∧ op.toNat ≤ 3) ∧ len = 6) ∨ ((4 ≤ op.toNat ∧ op.toNat ≤ 6) ∧ len = 4) →
    (s.program.length < s.pc + len ↔
      step s = .next (faultedAt s
        (.truncatedInstruction op (len - 1) (s.program.length - s.pc - 1))))) ∧
  ∀ op n k, (FaultCause.truncatedInstruction op n k).code = 2

/-- R98: an opcode fetch at `pc = N` halts and changes nothing else; nothing else halts; an empty
program halts at its first fetch with an empty trace and every piece of state at its reset value. -/
def Obligations.HaltAtEndOfProgram : Prop :=
  (∀ s, s.status = .running → s.pc = s.program.length →
    step s = .next { s with status := .halted }) ∧
  (∀ s t, step s = .next t → t.status = .halted → s.pc = s.program.length) ∧
  (∀ obsStart obsEnd policy, obsStart ≤ obsEnd → obsEnd ≤ 1023 →
    step (State.start ⟨[], obsStart, obsEnd, policy⟩) =
      .next { State.start ⟨[], obsStart, obsEnd, policy⟩ with status := .halted } ∧
    (State.start ⟨[], obsStart, obsEnd, policy⟩).trace = [])

/-- A final status is final: a halted or faulted block takes no further step (R36, R103, R170). That
such a step stops, and under which name, is the model's choice (log 1). -/
def Obligations.FinalStatusTakesNoStep : Prop :=
  (∀ s, s.status = .halted → step s = .fault .runHalted) ∧
  (∀ s f, s.status = .faulted f → step s = .fault (.runFaulted f))

/-- Faults are precise, and the status moves only to a final value: a step either stays running, or
halts at the end of the program with nothing else changed, or faults with nothing else changed and a
record that names the instruction (R36, R100, R103, R175, R179). -/
def Obligations.FaultsArePrecise : Prop :=
  ∀ s t, step s = .next t →
    s.status = .running ∧
    (t.status = .running ∨
      (s.pc = s.program.length ∧ t = { s with status := .halted }) ∨
      ∃ cause, t = faultedAt s cause)

/-- R175: what a fault keeps. A step that faults leaves the registers, the memory, the accumulator,
`pc`, `icount` and every trace record as they were, all still readable by the host, and the run has
exactly the one diagnostic, which carries the fault record. The readout after a fault is the spec's
decision D8. -/
def Obligations.FaultKeepsState : Prop :=
  ∀ s t f, step s = .next t → t.status = .faulted f →
    s.diagnostic = none ∧ t.diagnostic = some f ∧
    t.observation = { s.observation with status := .faulted f } ∧
    t.pc = s.pc ∧ t.icount = s.icount ∧ ∀ u, step t ≠ .next u

/-- R106: for any bytes and any `pc` in `[0, N]`, the step of a running block has exactly one outcome: a
halt, one of the four instruction faults, or a retired instruction. The spec derives the rule from R94
to R101. -/
def Obligations.StepIsTotal : Prop :=
  ∀ s, s.status = .running → s.pc ≤ s.program.length →
    ∃ t, step s = .next t ∧
      (t.status = .halted ∨
        (∃ f, t.status = .faulted f ∧ ∀ a b, f.cause ≠ .invalidObservationRange a b) ∨
        (t.status = .running ∧ t.icount = s.icount + 1))

/-! ### What each instruction does -/

/-- R130: LOAD_CONST writes the constant to the accumulator and to its register, and retires with 6
bytes; a constant of the field's range is the signed value of that word. -/
def Obligations.LoadConstResult : Prop :=
  ∀ (c : Int) (r : Nat) (s : State) (_ : r < 32),
    Retires (.loadConst c r) s
      { s with acc := BitVec.ofInt 32 c, regs := s.regs.set r (BitVec.ofInt 32 c) } 6 ∧
    (-2147483648 ≤ c → c ≤ 2147483647 → (BitVec.ofInt 32 c).toInt = c)

/-- R134: LOAD_MEM writes the addressed cell's value to the accumulator and to its register, and retires
with 6 bytes, under either address policy. The masking function is the spec's decision D3. -/
def Obligations.LoadMemResult : Prop :=
  ∀ (a r : Nat) (s : State) (_ : r < 32),
    (s.addrPolicy = .reject → a < 1024 →
      Retires (.loadMem a r) s
        { s with acc := s.mem.read a, regs := s.regs.set r (s.mem.read a) } 6) ∧
    (s.addrPolicy = .mask →
      Retires (.loadMem a r) s
        { s with acc := s.mem.read (a % 1024), regs := s.regs.set r (s.mem.read (a % 1024)) } 6)

/-- R138: STORE_MEM writes its register's value to the addressed cell, writes neither the accumulator
nor a register, and retires with 6 bytes, under either address policy. The masking function is the
spec's decision D3. -/
def Obligations.StoreMemResult : Prop :=
  ∀ (r a : Nat) (s : State) (_ : r < 32),
    (s.addrPolicy = .reject → a < 1024 →
      Retires (.storeMem r a) s { s with mem := s.mem.write a s.regs[r] } 6) ∧
    (s.addrPolicy = .mask →
      Retires (.storeMem r a) s { s with mem := s.mem.write (a % 1024) s.regs[r] } 6)

/-- R151: GE_OP writes exactly 1 when the first register is greater or equal as a signed integer, else
exactly 0, reads both sources before it writes, and retires with 4 bytes. -/
def Obligations.GreaterEqualResult : Prop :=
  ∀ (a b r : Nat) (s : State) (_ : a < 32) (_ : b < 32) (_ : r < 32),
    Retires (.geOp a b r) s
      { s with regs := s.regs.set r (if s.regs[a].toInt ≥ s.regs[b].toInt then 1 else 0) } 4

/-- R155: ADD_OP writes the sum modulo 2^32, the same for the signed and the unsigned reading of the
operands, and retires with 4 bytes. The width and the wrapping are the spec's decision D1. -/
def Obligations.AddResult : Prop :=
  ∀ (a b r : Nat) (s : State) (_ : a < 32) (_ : b < 32) (_ : r < 32),
    Retires (.addOp a b r) s
      { s with regs := s.regs.set r (BitVec.ofInt 32 (s.regs[a].toInt + s.regs[b].toInt)) } 4 ∧
    BitVec.ofInt 32 (s.regs[a].toInt + s.regs[b].toInt) =
      BitVec.ofNat 32 (s.regs[a].toNat + s.regs[b].toNat)

/-- R158: SUB_OP writes the difference modulo 2^32, minuend `reg_a`, and retires with 4 bytes. That
SUB_OP wraps is the spec's decision D2. -/
def Obligations.SubtractResult : Prop :=
  ∀ (a b r : Nat) (s : State) (_ : a < 32) (_ : b < 32) (_ : r < 32),
    Retires (.subOp a b r) s
      { s with regs := s.regs.set r (BitVec.ofInt 32 (s.regs[a].toInt - s.regs[b].toInt)) } 4

/-- R99: operands are checked in declaration order before anything is written, and the first that fails
decides the fault. The order among operands is the spec's decision D7. -/
def Obligations.OperandsCheckedInOrder : Prop :=
  ∀ (s : State) (a b r : Nat) (c : Int),
    (32 ≤ r → exec (.loadConst c r) s =
      .next (faultedAt s (.registerIndexOutOfRange .destRegister r))) ∧
    (s.addrPolicy = .reject → 1024 ≤ a → exec (.loadMem a r) s =
      .next (faultedAt s (.memoryIndexOutOfRange .address a))) ∧
    ((s.addrPolicy = .mask ∨ a < 1024) → 32 ≤ r → exec (.loadMem a r) s =
      .next (faultedAt s (.registerIndexOutOfRange .destRegister r))) ∧
    (32 ≤ r → exec (.storeMem r a) s =
      .next (faultedAt s (.registerIndexOutOfRange .srcRegister r))) ∧
    (r < 32 → s.addrPolicy = .reject → 1024 ≤ a → exec (.storeMem r a) s =
      .next (faultedAt s (.memoryIndexOutOfRange .address a))) ∧
    (∀ i, (i = .geOp a b r ∨ i = .addOp a b r ∨ i = .subOp a b r) →
      (32 ≤ a → exec i s = .next (faultedAt s (.registerIndexOutOfRange .regA a))) ∧
      (a < 32 → 32 ≤ b → exec i s = .next (faultedAt s (.registerIndexOutOfRange .regB b))) ∧
      (a < 32 → b < 32 → 32 ≤ r →
        exec i s = .next (faultedAt s (.registerIndexOutOfRange .regResult r))))

/-- R173: a step raises RegisterIndexOutOfRange (code 3) only for a register-index field of the decoded
instruction, under the field's own name, and only with a value in 32 .. 255; each of the six
instructions raises it in some form. The code's number is the spec's decision D6 (log 4). -/
def Obligations.RegisterFaultCause : Prop :=
  (∀ s t field value pc n, step s = .next t →
    t.status = .faulted ⟨.registerIndexOutOfRange field value, pc, n⟩ →
    32 ≤ value ∧ value ≤ 255 ∧
    (field = .destRegister ∨ field = .srcRegister ∨ field = .regA ∨ field = .regB ∨
      field = .regResult) ∧
    ∃ i, DecodesAt s i ∧ (field, (value : Int)) ∈ i.mnemonic.operands.zip i.values) ∧
  (∀ (m : Mnemonic) (s : State), ∃ i field, i.wellFormed = true ∧ i.mnemonic = m ∧
    exec i s = .next (faultedAt s (.registerIndexOutOfRange field 32))) ∧
  ∀ field value, (FaultCause.registerIndexOutOfRange field value).code = 3

/-- R177: a step raises MemoryIndexOutOfRange (code 4) only under `Reject`, only for the address of a
LOAD_MEM or STORE_MEM, and only with a value in 1024 .. 2^32 - 1; both raise it. The code's number is
the spec's decision D6 and the policy its decision D3 (log 4). -/
def Obligations.MemoryFaultCause : Prop :=
  (∀ s t field value pc n, step s = .next t →
    t.status = .faulted ⟨.memoryIndexOutOfRange field value, pc, n⟩ →
    s.addrPolicy = .reject ∧ field = .address ∧ 1024 ≤ value ∧ value < 4294967296 ∧
    ∃ r, DecodesAt s (.loadMem value r) ∨ DecodesAt s (.storeMem r value)) ∧
  (∀ (s : State) (a : Nat), s.addrPolicy = .reject → 1024 ≤ a →
    exec (.loadMem a 0) s = .next (faultedAt s (.memoryIndexOutOfRange .address a)) ∧
    exec (.storeMem 0 a) s = .next (faultedAt s (.memoryIndexOutOfRange .address a))) ∧
  ∀ field value, (FaultCause.memoryIndexOutOfRange field value).code = 4

/-- R56: the address translator. Under `Reject` an address below 1024 is the cell index and any other
faults; under `Mask` the cell is the low ten bits of the address, its value modulo 1024. The policy
parameter and the masking function are the spec's decision D3. -/
def Obligations.TranslateByPolicy : Prop :=
  ∀ a : Nat,
    (∀ h : a < 1024, translate .reject a = .ok ⟨a, h⟩) ∧
    (1024 ≤ a → translate .reject a = .error (.memoryIndexOutOfRange .address a)) ∧
    (∃ k, translate .mask a = .ok k ∧ k.val = a % 1024 ∧ k.val = a &&& 0x3FF)

/-! ### Frames -/

/-- The frame of LOAD_CONST and LOAD_MEM, which write the destination register and the accumulator: a
next state keeps every other register, every memory cell, the program and the configuration; the trace
only gains this instruction's record, and a faulting form keeps all but the status. -/
def Obligations.LoadFrame : Prop :=
  ∀ (i : Instr) (c : Int) (a r : Nat) (s t : State), i = .loadConst c r ∨ i = .loadMem a r →
    exec i s = .next t →
    (∀ q : Fin 32, q.val ≠ r → t.readReg q = s.readReg q) ∧
    (∀ k, t.mem.read k = s.mem.read k) ∧
    t.program = s.program ∧ t.obsStart = s.obsStart ∧ t.obsEnd = s.obsEnd ∧
    t.addrPolicy = s.addrPolicy ∧
    ((t.status = s.status ∧ t.trace = s.trace ++ [t.traceRecord]) ∨
      (∃ cause, t = faultedAt s cause))

/-- The frame of STORE_MEM: a next state keeps every register, the accumulator, the program, the
configuration and every memory cell but the one its address translates to; a faulting form keeps that
cell as well. -/
def Obligations.StoreFrame : Prop :=
  ∀ (r a : Nat) (s t : State), exec (.storeMem r a) s = .next t →
    (∀ q, t.readReg q = s.readReg q) ∧ t.acc = s.acc ∧
    (∀ k, translate s.addrPolicy a = .ok k → ∀ j, j ≠ k.val → t.mem.read j = s.mem.read j) ∧
    (∀ cause, translate s.addrPolicy a = .error cause → ∀ j, t.mem.read j = s.mem.read j) ∧
    t.program = s.program ∧ t.obsStart = s.obsStart ∧ t.obsEnd = s.obsEnd ∧
    t.addrPolicy = s.addrPolicy ∧
    ((t.status = s.status ∧ t.trace = s.trace ++ [t.traceRecord]) ∨
      (∃ cause, t = faultedAt s cause))

/-- The frame of GE_OP, ADD_OP and SUB_OP: a next state keeps every register but the result register,
the accumulator, every memory cell, the program and the configuration. -/
def Obligations.AluFrame : Prop :=
  ∀ (i : Instr) (a b r : Nat) (s t : State),
    i = .geOp a b r ∨ i = .addOp a b r ∨ i = .subOp a b r →
    exec i s = .next t →
    (∀ q : Fin 32, q.val ≠ r → t.readReg q = s.readReg q) ∧ t.acc = s.acc ∧
    (∀ k, t.mem.read k = s.mem.read k) ∧
    t.program = s.program ∧ t.obsStart = s.obsStart ∧ t.obsEnd = s.obsEnd ∧
    t.addrPolicy = s.addrPolicy ∧
    ((t.status = s.status ∧ t.trace = s.trace ++ [t.traceRecord]) ∨
      (∃ cause, t = faultedAt s cause))

/-! ### Memory -/

/-- R54: a write sets its cell, which then reads as the value written, and changes no other cell; and it
keeps the canonical form (log 6). The first part needs the canonical form. -/
def Obligations.MemoryWriteSetsOneCell : Prop :=
  ∀ (m : Memory) (k : Nat) (v : Word), m.wf → k < 1024 →
    (m.write k v).read k = v ∧ (∀ j, j ≠ k → (m.write k v).read j = m.read j) ∧ (m.write k v).wf

/-- Two canonical memories that read alike at every cell are the same data: the representation is the
model's choice (log 6) and hides nothing. -/
def Obligations.CanonicalMemoriesEqual : Prop :=
  ∀ m n : Memory, m.wf → n.wf → (∀ k, k < 1024 → m.read k = n.read k) → m = n

/-- After any retired step a cell holds the value the step stored there, or what it held before: with
the reset value 0, a cell always reads as the last value stored to it in the run, or 0 (R51, R63). -/
def Obligations.CellHoldsLastStore : Prop :=
  ∀ s t, s.Inv → step s = .next t → ∀ k : Fin 1024,
    (∀ (r a : Nat) (h : r < 32), DecodesAt s (.storeMem r a) → translate s.addrPolicy a = .ok k →
      t.mem.read k = s.regs[r]) ∧
    ((¬ ∃ r a, DecodesAt s (.storeMem r a) ∧ translate s.addrPolicy a = .ok k) →
      t.mem.read k = s.mem.read k)

/-- R142: LOAD_CONST, STORE_MEM, LOAD_MEM in sequence carry a constant through a cell, under either
address policy. The spec derives the rule from R130, R134 and R138. -/
def Obligations.StoreLoadRoundTrip : Prop :=
  ∀ (s : State) (c : Int) (r r2 addr : Nat) (_ : r < 32) (_ : r2 < 32) (_ : addr < 1024),
    s.mem.wf → -2147483648 ≤ c → c ≤ 2147483647 →
    ∃ s1 s2 s3, exec (.loadConst c r) s = .next s1 ∧ exec (.storeMem r addr) s1 = .next s2 ∧
      exec (.loadMem addr r2) s2 = .next s3 ∧
      s3.regs[r2].toInt = c ∧ (s3.mem.read addr).toInt = c ∧ s3.acc.toInt = c

/-! ### The ALU -/

/-- R162: ADD_OP then SUB_OP of the same second operand gives the first operand back for all values, and
gives 0 when the sum overwrote the second operand. The spec derives the rule from R150, R155 and R158.
-/
def Obligations.SubtractUndoesAdd : Prop :=
  ∀ (s : State) (a b r r2 : Nat) (_ : a < 32) (_ : b < 32) (_ : r < 32) (_ : r2 < 32),
    ∃ s1 s2, exec (.addOp a b r) s = .next s1 ∧ exec (.subOp r b r2) s1 = .next s2 ∧
      (r ≠ b → s2.regs[r2] = s.regs[a]) ∧
      (r = b → s1.regs[b] = s.regs[a] + s.regs[b] ∧ s2.regs[r2] = 0)

/-! ### Rules of the whole machine -/

/-- Registers change only as a destination: whatever a step runs, a register that changes is the
destination of the decoded instruction, and STORE_MEM has none (R22). -/
def Obligations.OnlyDestinationRegisterChanges : Prop :=
  ∀ s t (q : Fin 32), step s = .next t → t.readReg q ≠ s.readReg q →
    (∃ c, DecodesAt s (.loadConst c q)) ∨ (∃ a, DecodesAt s (.loadMem a q)) ∨
    (∃ a b, DecodesAt s (.geOp a b q) ∨ DecodesAt s (.addOp a b q) ∨ DecodesAt s (.subOp a b q))

/-- The accumulator changes only by LOAD_CONST and LOAD_MEM, and a load that retires leaves it equal to
the register it wrote (R32). -/
def Obligations.OnlyLoadsWriteAccumulator : Prop :=
  ∀ s t, step s = .next t →
    (t.acc ≠ s.acc → ∃ r, (∃ c, DecodesAt s (.loadConst c r)) ∨ ∃ a, DecodesAt s (.loadMem a r)) ∧
    (∀ (r : Nat) (h : r < 32),
      ((∃ c, DecodesAt s (.loadConst c r)) ∨ ∃ a, DecodesAt s (.loadMem a r)) →
      t.status = .running → t.acc = t.regs[r])

/-- No instruction reads the accumulator: two runs whose states differ only in the accumulator keep the
same registers, memory, program counter, instruction counter and status, for any number of steps (R32).
-/
def Obligations.AccumulatorInfluencesNothing : Prop :=
  ∀ (k : Nat) (s t : State) (v : Word), Sys2Proof.core.run k s = .next t →
    ∃ t', Sys2Proof.core.run k { s with acc := v } = .next t' ∧
      t'.regs = t.regs ∧ t'.mem = t.mem ∧ t'.pc = t.pc ∧ t'.icount = t.icount ∧
      t'.status = t.status

/-- No instruction reads the trace, the observation range or the instruction counter (R37, R57, R194):
two runs that differ only in these keep the same registers, memory, accumulator and program counter, and
one halts exactly when the other does. -/
def Obligations.ObservationInfluencesNothing : Prop :=
  ∀ (k : Nat) (s t : State) (a b n : Nat) (tr : List TraceRecord),
    Sys2Proof.core.run k s = .next t →
    ∃ t', Sys2Proof.core.run k { s with obsStart := a, obsEnd := b, icount := n, trace := tr } = .next t' ∧
      t'.regs = t.regs ∧ t'.mem = t.mem ∧ t'.acc = t.acc ∧ t'.pc = t.pc ∧
      (t'.status = .running ↔ t.status = .running) ∧ (t'.status = .halted ↔ t.status = .halted)

/-- R29: a step that retires moves `pc` forward by exactly the decoded instruction's length, 6 for the
loads and the store and 4 for the ALU instructions; a step that does not retire leaves `pc`. -/
def Obligations.PcAdvancesByLength : Prop :=
  ∀ s t, step s = .next t →
    (t.status = .running ∧
      (((∃ c r, DecodesAt s (.loadConst c r)) ∨ (∃ a r, DecodesAt s (.loadMem a r)) ∨
          (∃ r a, DecodesAt s (.storeMem r a))) ∧ t.pc = s.pc + 6 ∨
        (∃ a b r, DecodesAt s (.geOp a b r) ∨ DecodesAt s (.addOp a b r) ∨
          DecodesAt s (.subOp a b r)) ∧ t.pc = s.pc + 4)) ∨
    (t.status ≠ .running ∧ t.pc = s.pc)

/-- The program store and the configuration are constant for the whole run: no number of steps changes
them (R35, R39, R66). -/
def Obligations.ProgramAndConfigurationConstant : Prop :=
  ∀ (k : Nat) (s t : State), Sys2Proof.core.run k s = .next t →
    t.program = s.program ∧ t.obsStart = s.obsStart ∧ t.obsEnd = s.obsEnd ∧
    t.addrPolicy = s.addrPolicy

/-! ### The trace port -/

/-- R187: a trace record holds the pair of index and value for each cell of the observation range in
ascending order, then the ten registers x[0] to x[9], then the accumulator. The order of the items is
the spec's decision D9. -/
def Obligations.TraceRecordContents : Prop :=
  ∀ s : State,
    s.traceRecord.cells.length = s.obsEnd + 1 - s.obsStart ∧
    (∀ j, s.obsStart + j ≤ s.obsEnd →
      s.traceRecord.cells[j]? = some (s.obsStart + j, s.mem.read (s.obsStart + j))) ∧
    (∀ (j : Nat) (hj : j < 10),
      s.traceRecord.regs[j] = s.regs[j]'(Nat.lt_trans hj (by decide))) ∧
    s.traceRecord.acc = s.acc

/-- R186, R188: exactly one record, the snapshot of the state after the writes, per retired instruction;
none at a halt or for a faulting instruction; none before the first instruction. Each record holds the
whole observed range. -/
def Obligations.OneRecordPerInstruction : Prop :=
  (∀ s t, step s = .next t →
    (t.status = .running ∧ t.icount = s.icount + 1 ∧ t.trace = s.trace ++ [t.traceRecord]) ∨
    (t.status ≠ .running ∧ t.icount = s.icount ∧ t.trace = s.trace)) ∧
  (∀ h, (State.start h).trace = []) ∧
  (∀ (s : State) (k : Nat), s.obsStart ≤ k → k ≤ s.obsEnd → (k, s.mem.read k) ∈ s.traceRecord.cells)

/-- Records come in retirement order and none is withdrawn: over any number of steps the trace only
grows at its end, by one record per retired instruction (R40, R43). -/
def Obligations.TraceOnlyGrows : Prop :=
  ∀ (k : Nat) (s t : State), Sys2Proof.core.run k s = .next t →
    s.icount ≤ t.icount ∧ ∃ new, t.trace = s.trace ++ new ∧ new.length = t.icount - s.icount

/-! ### Reset, the run sequence and the end of a run -/

/-- R41, R174: the state in which a run starts. All registers, cells, the accumulator, `pc` and `icount`
are 0, the trace is empty, the configuration is the host's with `Reject` for a policy it does not give,
and the status is Running when the range is legal, else Faulted(InvalidObservationRange) (code 5) with
pc 0 and icount 0, whatever the program and the policy are. The reset values of `acc`, `pc` and `icount`
and the check for an empty program are the spec's decisions D4, D5, D6 and D10. -/
def Obligations.StartOfRun : Prop :=
  (∀ h : HostInput,
    (∀ q, (State.start h).readReg q = 0) ∧ (∀ k, (State.start h).mem.read k = 0) ∧
    (State.start h).acc = 0 ∧ (State.start h).pc = 0 ∧ (State.start h).icount = 0 ∧
    (State.start h).trace = [] ∧ (State.start h).program = h.program ∧
    (State.start h).obsStart = h.obsStart ∧ (State.start h).obsEnd = h.obsEnd ∧
    (h.addrPolicy = none → (State.start h).addrPolicy = .reject) ∧
    (∀ p, h.addrPolicy = some p → (State.start h).addrPolicy = p) ∧
    (h.obsStart ≤ h.obsEnd ∧ h.obsEnd ≤ 1023 → (State.start h).status = .running) ∧
    (¬ (h.obsStart ≤ h.obsEnd ∧ h.obsEnd ≤ 1023) → (State.start h).status =
      .faulted ⟨.invalidObservationRange h.obsStart h.obsEnd, 0, 0⟩)) ∧
  ∀ a b, (FaultCause.invalidObservationRange a b).code = 5

/-- The model's reset state is the start of a run of the empty program under the range 0:0 and the
default policy. The program and the range are the model's choice (log 2, log 3); the rest is R41. -/
def Obligations.ResetIsStartOfEmptyProgram : Prop :=
  State.reset = State.start ⟨[], 0, 0, none⟩

/-- The invariant holds where a run starts, under any host input, and at reset. At reset the program and
the legal range are the model's choice (log 2, log 3), and the canonical form of the memory is its
representation (log 6). -/
def Obligations.InvariantAtStart : Prop :=
  (∀ h, (State.start h).Inv) ∧ State.reset.Inv

/-- Every step keeps the invariant: the memory stays canonical, `pc` stays inside the program and pays
four bytes for each instruction, the trace holds one whole-range record per instruction, no step runs
under an illegal range, a halt is at the end of the program, and a fault record names where the run
stopped. The canonical form is the model's representation (log 6). -/
def Obligations.StepKeepsInvariant : Prop :=
  ∀ s t, s.Inv → step s = .next t → t.Inv

/-- R18: every run ends, in a halt or a fault, within floor(N / 4) + 1 steps; a retired instruction
advances `pc` by at least 4 and no step decreases it. The spec derives the rule from R92 and R98. What
the end of a run is, is the spec's decision D20 (R17). -/
def Obligations.RunEndsWithinBound : Prop :=
  (∀ h : HostInput, ∃ k t, k ≤ h.program.length / 4 + 1 ∧ EndsAfter (State.start h) k t) ∧
  (∀ s t, step s = .next t → s.pc ≤ t.pc ∧ (t.icount = s.icount + 1 → s.pc + 4 ≤ t.pc))

/-- Under a legal range a program halts normally exactly when its bytes are a sequence of encoded
instructions none of which fails validation (R205, first part). The address policy is the spec's
decision D3, and the end of a run its decision D20. -/
def Obligations.HaltsExactlyWhenValid : Prop :=
  ∀ h : HostInput, h.obsStart ≤ h.obsEnd → h.obsEnd ≤ 1023 →
    (HaltsNormally (State.start h) ↔
      ∃ is : List Instr, h.program = is.flatMap encode ∧
        ∀ i ∈ is, i.wellFormed = true ∧ PassesValidation (h.addrPolicy.getD .reject) i)

/-- Otherwise a run ends with the fault of the first instruction that breaks a condition: after a prefix
of valid instructions, bytes that do not decode, or decode to an instruction that fails validation, end
the run in a fault whose record holds the offset and the index of that instruction (R205, second part).
The record's pc and index are the spec's decision D6. The address policy is the spec's decision D3. -/
def Obligations.FirstInvalidInstructionFaults : Prop :=
  ∀ (h : HostInput) (is : List Instr) (tail : List Byte),
    h.obsStart ≤ h.obsEnd → h.obsEnd ≤ 1023 →
    h.program = is.flatMap encode ++ tail →
    (∀ i ∈ is, i.wellFormed = true ∧ PassesValidation (h.addrPolicy.getD .reject) i) →
    tail ≠ [] →
    (∀ i rest, decode tail = .ok (i, rest) → ¬ PassesValidation (h.addrPolicy.getD .reject) i) →
    ∃ t f, EndsAfter (State.start h) (is.length + 1) t ∧ t.status = .faulted f ∧
      f.pc = (is.flatMap encode).length ∧ f.icount = is.length ∧ t.trace.length = is.length

/-! ### The host's aids and the assembler -/

/-- A table word placed for the next fetch runs as exactly the instruction the decoder reads from it, in
any state (log 9). -/
def Obligations.PlacedWordRuns : Prop :=
  ∀ (s : State) (nbits w : Nat) (i : Instr), decodeTableWord nbits w = some i →
    step (s.withFetchWord nbits w) = exec i (s.withFetchWord nbits w)

/-- What the assembler puts out (R116, R121 to R123, R125; the spec's decisions D13, D14 and D21; the split
into lines and tokens is the model's choice, log 10, and so is the literal in the log entry, log 11). The
binary and the log are those of exactly the lines that assemble, in order, so a line with an error leaves no
bytes. Such a line begins with a mnemonic; its bytes are the encoding of a well-formed instruction of that
row; its log entry has the row's opcode and keys and the literals of the operand tokens; each operand of
the instruction is its literal modulo 2^(8w), w the width of the field. And every line of a mnemonic and
enough literals assembles, whatever tokens follow. -/
def Obligations.AssembledBinaryIsInstructions : Prop :=
  (∀ text : List Char,
    let done := (splitLines text).filterMap fun line =>
      match assembleLine line with
      | .skipped => none
      | .failed _ => none
      | .emitted bytes entry => some (bytes, entry)
    (assemble text).binary = done.flatMap Prod.fst ∧ (assemble text).log = done.map Prod.snd) ∧
  (∀ line bytes entry, assembleLine line = .emitted bytes entry →
    ∃ (i : Instr) (tokens : List (List Char)), i.wellFormed = true ∧ bytes = encode i ∧
      splitTokens [] line = (mnemonicText i.mnemonic).toList :: tokens ∧
      (tokens.take i.mnemonic.operands.length).map parseLiteral =
        entry.operands.map (fun operand => some operand.2) ∧
      entry.command = i.mnemonic ∧ entry.opcode = i.mnemonic.opcode.toNat ∧
      entry.operands.map Prod.fst = i.mnemonic.operands.map logKey ∧
      ∀ (k : Nat) (f : Operand), i.mnemonic.operands[k]? = some f →
        ∃ literal value : Int, entry.operands[k]? = some (logKey f, literal) ∧
          i.values[k]? = some value ∧
          value % 2 ^ (8 * f.width) = literal % 2 ^ (8 * f.width)) ∧
  (∀ (line : List Char) (m : Mnemonic) (tokens : List (List Char)) (literals : List Int),
    splitTokens [] line = (mnemonicText m).toList :: tokens →
    literals.length = m.operands.length →
    (tokens.take m.operands.length).map parseLiteral = literals.map some →
    ∃ bytes entry, assembleLine line = .emitted bytes entry ∧ entry.command = m ∧
      entry.operands.map Prod.snd = literals)

/-- Which lines leave no bytes, and why (R115, R118 to R120, R125). A line without a token or whose first
character is `#` is skipped; then an unknown mnemonic, too few tokens and a malformed operand are errors,
tried in this order. The errors of a text are those of its lines, one to a line, in order. That a line has
one error at most, the order of the tests, and the line numbers are the model's choice (log 11); the split
into lines and tokens is log 10. -/
def Obligations.AssemblerLineErrors : Prop :=
  (∀ line, splitTokens [] line = [] → assembleLine line = .skipped) ∧
  (∀ line token tokens, splitTokens [] line = token :: tokens →
    (token.head? = some '#' → assembleLine line = .skipped) ∧
    (token.head? ≠ some '#' → (∀ m, (mnemonicText m).toList ≠ token) →
      assembleLine line = .failed .unknownInstruction) ∧
    (∀ m, (mnemonicText m).toList = token →
      (tokens.length < m.operands.length → assembleLine line = .failed .missingArguments) ∧
      (m.operands.length ≤ tokens.length →
        (∃ t ∈ tokens.take m.operands.length, parseLiteral t = none) →
        assembleLine line = .failed .malformedOperand))) ∧
  (∀ text, ((assemble text).errors.map Prod.fst).Pairwise (· < ·) ∧
    ∀ n e, (n, e) ∈ (assemble text).errors ↔
      1 ≤ n ∧ ∃ line, (splitLines text)[n - 1]? = some line ∧ assembleLine line = .failed e)

/-- The literal syntax of R120, which is the spec's decision D15: an optional sign and then one or more
decimal digits, leading zeros allowed, read in base ten; and nothing else is a literal. -/
def Obligations.LiteralSyntax : Prop :=
  (∀ ds : List (Fin 10), ds ≠ [] →
    let digits := ds.map fun d => Char.ofNat (48 + d.val)
    let n : Nat := ds.foldl (fun n d => 10 * n + d.val) 0
    parseLiteral digits = some (n : Int) ∧ parseLiteral ('+' :: digits) = some (n : Int) ∧
    parseLiteral ('-' :: digits) = some (-(n : Int))) ∧
  (∀ token v, parseLiteral token = some v → ∃ ds : List (Fin 10), ds ≠ [] ∧
    (token = ds.map (fun d => Char.ofNat (48 + d.val)) ∨
      token = '+' :: ds.map (fun d => Char.ofNat (48 + d.val)) ∨
      token = '-' :: ds.map (fun d => Char.ofNat (48 + d.val))))
end

