-- ==== Sys2Proof/Laws/Decode.lean ====
section
/-! SUPPORT. What opcode lookup, the operand split and the decoder answer, and the lengths of the
encoder's bytes. -/

namespace Sys2Proof

@[simp] theorem leBytes_length (w n : Nat) : (leBytes w n).length = w := by
  induction w generalizing n with
  | zero => rfl
  | succ w ih => simp [leBytes, ih]

/-- Reading back what was written gives the number modulo the width (R86, R108). -/
@[simp] theorem leValue_leBytes (w n : Nat) : leValue (leBytes w n) = n % 256 ^ w := by
  induction w generalizing n with
  | zero => simp [leBytes, leValue, Nat.mod_one]
  | succ w ih =>
    have h : n % 256 ^ (w + 1) = n % 256 + 256 * (n / 256 % 256 ^ w) := by
      rw [Nat.pow_succ', Nat.mod_mul]
    simp [leBytes, leValue, ih, h]

/-- Writing what was read gives the bytes back (R86, R108). -/
theorem leBytes_leValue (bytes : List Byte) : leBytes bytes.length (leValue bytes) = bytes := by
  induction bytes with
  | nil => rfl
  | cons b bs ih =>
    have hb := b.isLt
    have hd : (b.toNat + 256 * leValue bs) / 256 = leValue bs := by omega
    have hm : BitVec.ofNat 8 (b.toNat + 256 * leValue bs) = b := by
      apply BitVec.eq_of_toNat_eq
      simp
      omega
    rw [List.length_cons, leValue, leBytes, hd, ih, hm]

/-- A number from `k` bytes is below `256 ^ k`. -/
theorem leValue_lt (bytes : List Byte) : leValue bytes < 256 ^ bytes.length := by
  have h := leValue_leBytes bytes.length (leValue bytes)
  rw [leBytes_leValue] at h
  exact h ▸ Nat.mod_lt _ (Nat.pow_pos (by decide))

@[simp] theorem encodeField_length (f : Operand) (n : Int) : (encodeField f n).length = f.width := by
  simp [encodeField]

/-! ### Opcode lookup -/

/-- Each row is found under its own opcode. -/
@[simp] theorem Mnemonic.ofOpcode_opcode (m : Mnemonic) : Mnemonic.ofOpcode m.opcode = some m := by
  cases m <;> rfl

/-- A row that lookup finds has that opcode. -/
theorem Mnemonic.ofOpcode_eq_some {op : Byte} {m : Mnemonic} (h : Mnemonic.ofOpcode op = some m) :
    op = m.opcode := by
  have hm := List.find?_some h
  exact (eq_of_beq hm).symm

/-- Lookup fails exactly on the bytes 0x00 and 0x07 to 0xFF (R93). -/
theorem Mnemonic.ofOpcode_eq_none_iff (op : Byte) :
    Mnemonic.ofOpcode op = none ↔ op.toNat = 0 ∨ 7 ≤ op.toNat := by
  simp only [Mnemonic.ofOpcode, List.find?_eq_none, Mnemonic.all, beq_iff_eq, BitVec.toNat_eq,
    List.forall_mem_cons, Mnemonic.opcode]
  simp
  omega

/-- The lengths of R91. -/
theorem Mnemonic.length_eq (m : Mnemonic) :
    m.length = match m with
      | .loadConst | .loadMem | .storeMem => 6
      | .geOp | .addOp | .subOp => 4 := by
  cases m <;> rfl

/-- Every instruction is four to six bytes long (R92). -/
theorem Mnemonic.length_bounds (m : Mnemonic) : 4 ≤ m.length ∧ m.length ≤ 6 := by
  cases m <;> decide

theorem Mnemonic.length_eq_succ (m : Mnemonic) : m.length = m.operandBytes + 1 := Nat.add_comm ..

/-- Opcode and length together, as the rules of the spec list them (R90). -/
theorem Mnemonic.opcode_length (m : Mnemonic) :
    ((1 ≤ m.opcode.toNat ∧ m.opcode.toNat ≤ 3) ∧ m.length = 6) ∨
      ((4 ≤ m.opcode.toNat ∧ m.opcode.toNat ≤ 6) ∧ m.length = 4) := by
  cases m <;> decide

/-! ### The operand split -/

/-- The row and the values of an instruction give it back. -/
@[simp] theorem Instr.ofValues_values (i : Instr) : Instr.ofValues i.mnemonic i.values = some i := by
  cases i <;> rfl

/-- What `Instr.ofValues` answers belongs to the row, and the row has as many operands as there are
values. -/
theorem Instr.ofValues_eq_some {m : Mnemonic} {values : List Int} {i : Instr}
    (h : Instr.ofValues m values = some i) : i.mnemonic = m ∧ values.length = m.operands.length := by
  unfold Instr.ofValues at h
  split at h <;> cases h <;> exact ⟨rfl, rfl⟩

/-- As many values as the row has operands make an instruction of it. -/
theorem Instr.ofValues_isSome {m : Mnemonic} {values : List Int}
    (h : values.length = m.operands.length) : ∃ i, Instr.ofValues m values = some i := by
  cases m <;> rcases values with _ | ⟨a, _ | ⟨b, _ | ⟨c, _ | ⟨d, rest⟩⟩⟩⟩ <;>
    first | exact ⟨_, rfl⟩ | (simp [Mnemonic.operands] at h)

/-- All that the split into fields can answer. -/
theorem decodeFields_cases (fs : List Operand) (bytes : List Byte) :
    (bytes.length < (fs.map Operand.width).sum ∧ decodeFields fs bytes = none) ∨
      ((fs.map Operand.width).sum ≤ bytes.length ∧ ∃ values, values.length = fs.length ∧
        decodeFields fs bytes = some (values, bytes.drop (fs.map Operand.width).sum)) := by
  induction fs generalizing bytes with
  | nil => exact .inr ⟨Nat.zero_le _, [], rfl, rfl⟩
  | cons f fs ih =>
    simp only [decodeFields, List.map_cons, List.sum_cons]
    by_cases hf : bytes.length < f.width
    · exact .inl ⟨by omega, by simp [hf]⟩
    · rcases ih (bytes.drop f.width) with ⟨hl, h⟩ | ⟨hl, values, hv, h⟩ <;> rw [List.length_drop] at hl
      · exact .inl ⟨by omega, by simp [hf, h]⟩
      · exact .inr ⟨by omega, f.ofBytes (bytes.take f.width) :: values, by simp [hv], by simp [hf, h]⟩

/-- A field comes first: its bytes, then the rest of the split. -/
theorem decodeFields_cons (f : Operand) (fs : List Operand) {field : List Byte} (rest : List Byte)
    (h : field.length = f.width) :
    decodeFields (f :: fs) (field ++ rest) =
      (decodeFields fs rest).map fun found => (f.ofBytes field :: found.1, found.2) := by
  have ht : (field ++ rest).take f.width = field := by rw [← h, List.take_left]
  have hd : (field ++ rest).drop f.width = rest := by rw [← h, List.drop_left]
  rw [decodeFields, if_neg (by simp [h]), ht, hd]
  cases decodeFields fs rest <;> rfl

/-- The split fails exactly when too few bytes are left (R96). -/
theorem decodeOperands_eq_none_iff (m : Mnemonic) (bytes : List Byte) :
    decodeOperands m bytes = none ↔ bytes.length < m.operandBytes := by
  rcases decodeFields_cases m.operands bytes with ⟨hl, h⟩ | ⟨hl, values, hv, h⟩
  · exact iff_of_true (by simp [decodeOperands, h]) hl
  · obtain ⟨i, hi⟩ := Instr.ofValues_isSome hv
    exact iff_of_false (by simp [decodeOperands, h, hi]) (Nat.not_lt.2 hl)

/-- A successful split answers an instruction of the row and leaves the bytes after its operands. -/
theorem decodeOperands_eq_some {m : Mnemonic} {bytes rest : List Byte} {i : Instr}
    (h : decodeOperands m bytes = some (i, rest)) :
    i.mnemonic = m ∧ m.operandBytes ≤ bytes.length ∧ rest = bytes.drop m.operandBytes := by
  rcases decodeFields_cases m.operands bytes with ⟨-, hf⟩ | ⟨hl, values, hv, hf⟩
  · simp [decodeOperands, hf] at h
  · obtain ⟨j, hj⟩ := Instr.ofValues_isSome hv
    simp only [decodeOperands, hf, hj, Option.map_some, Option.some.injEq, Prod.mk.injEq] at h
    obtain ⟨rfl, rfl⟩ := h
    exact ⟨(Instr.ofValues_eq_some hj).1, hl, rfl⟩

/-! The split of each row, field by field (R82 to R85). -/

theorem leValue_one (b : Byte) : leValue [b] = b.toNat := by simp [leValue]

theorem leValue_four (b0 b1 b2 b3 : Byte) :
    leValue [b0, b1, b2, b3] =
      b0.toNat + 256 * b1.toNat + 65536 * b2.toNat + 16777216 * b3.toNat := by
  simp only [leValue]; omega

theorem decodeOperands_loadConst (c0 c1 c2 c3 d : Byte) (rest : List Byte) :
    decodeOperands .loadConst (c0 :: c1 :: c2 :: c3 :: d :: rest) =
      some (.loadConst (signed32 (leValue [c0, c1, c2, c3])) (leValue [d]), rest) := rfl

theorem decodeOperands_loadMem (a0 a1 a2 a3 d : Byte) (rest : List Byte) :
    decodeOperands .loadMem (a0 :: a1 :: a2 :: a3 :: d :: rest) =
      some (.loadMem (leValue [a0, a1, a2, a3]) (leValue [d]), rest) := rfl

theorem decodeOperands_storeMem (r a0 a1 a2 a3 : Byte) (rest : List Byte) :
    decodeOperands .storeMem (r :: a0 :: a1 :: a2 :: a3 :: rest) =
      some (.storeMem (leValue [r]) (leValue [a0, a1, a2, a3]), rest) := rfl

theorem decodeOperands_geOp (a b r : Byte) (rest : List Byte) :
    decodeOperands .geOp (a :: b :: r :: rest) =
      some (.geOp (leValue [a]) (leValue [b]) (leValue [r]), rest) := rfl

theorem decodeOperands_addOp (a b r : Byte) (rest : List Byte) :
    decodeOperands .addOp (a :: b :: r :: rest) =
      some (.addOp (leValue [a]) (leValue [b]) (leValue [r]), rest) := rfl

theorem decodeOperands_subOp (a b r : Byte) (rest : List Byte) :
    decodeOperands .subOp (a :: b :: r :: rest) =
      some (.subOp (leValue [a]) (leValue [b]) (leValue [r]), rest) := rfl

/-! ### The decoder -/

/-- Everything a successful decoding says: the opcode is the instruction's, all its bytes are there, and
the bytes after them remain. -/
theorem decode_eq_ok {bytes rest : List Byte} {i : Instr} (h : decode bytes = .ok (i, rest)) :
    ∃ tail, bytes = i.mnemonic.opcode :: tail ∧ decodeOperands i.mnemonic tail = some (i, rest) ∧
      i.length ≤ bytes.length ∧ rest = bytes.drop i.length := by
  unfold decode at h
  split at h
  · cases h
  · rename_i op tail
    split at h
    · cases h
    · rename_i m hm
      split at h
      · cases h
      · rename_i found hfound
        cases h
        obtain ⟨rfl, hle, hrest⟩ := decodeOperands_eq_some hfound
        refine ⟨tail, by rw [Mnemonic.ofOpcode_eq_some hm], hfound, ?_, ?_⟩
        · simp only [Instr.length, Mnemonic.length_eq_succ, List.length_cons]; omega
        · simp [Instr.length, Mnemonic.length_eq_succ, hrest]

/-- An unknown opcode byte is rejected whatever follows it (R95). -/
theorem decode_unknown {op : Byte} (h : Mnemonic.ofOpcode op = none) (rest : List Byte) :
    decode (op :: rest) = .error (.unknownOpcode op) := by
  simp [decode, h]

/-- A known opcode with too few operand bytes is rejected as truncated (R96). -/
theorem decode_truncated {op : Byte} {m : Mnemonic} (h : Mnemonic.ofOpcode op = some m)
    {rest : List Byte} (hlen : rest.length < m.operandBytes) :
    decode (op :: rest) = .error (.truncated op m.operandBytes rest.length) := by
  simp [decode, h, (decodeOperands_eq_none_iff m rest).2 hlen]

/-- A known opcode with its operand bytes decodes to an instruction of its row (R97). -/
theorem decode_complete {op : Byte} {m : Mnemonic} (h : Mnemonic.ofOpcode op = some m)
    {rest : List Byte} (hlen : m.operandBytes ≤ rest.length) :
    ∃ i, i.mnemonic = m ∧ decode (op :: rest) = .ok (i, rest.drop m.operandBytes) := by
  cases hd : decodeOperands m rest with
  | none => exact absurd ((decodeOperands_eq_none_iff m rest).1 hd) (Nat.not_lt.2 hlen)
  | some found =>
    obtain ⟨i, tail⟩ := found
    obtain ⟨him, -, rfl⟩ := decodeOperands_eq_some hd
    exact ⟨i, him, by simp [decode, h, hd]⟩

end Sys2Proof
end

