-- ==== Sys2Proof/Laws/State.lean ====
section
/-! SUPPORT. One lemma per field per state update, so that no proof unfolds a record update. -/

namespace Sys2Proof.Machine

open Sys2Proof.Config

/-! ### writeReg -/

@[simp] theorem State.writeReg_program (s : State) (r : Fin numReg) (v : Word) :
    (s.writeReg r v).program = s.program := rfl
@[simp] theorem State.writeReg_obsStart (s : State) (r : Fin numReg) (v : Word) :
    (s.writeReg r v).obsStart = s.obsStart := rfl
@[simp] theorem State.writeReg_obsEnd (s : State) (r : Fin numReg) (v : Word) :
    (s.writeReg r v).obsEnd = s.obsEnd := rfl
@[simp] theorem State.writeReg_addrPolicy (s : State) (r : Fin numReg) (v : Word) :
    (s.writeReg r v).addrPolicy = s.addrPolicy := rfl
@[simp] theorem State.writeReg_regs (s : State) (r : Fin numReg) (v : Word) :
    (s.writeReg r v).regs = s.regs.set r v := rfl
@[simp] theorem State.writeReg_mem (s : State) (r : Fin numReg) (v : Word) :
    (s.writeReg r v).mem = s.mem := rfl
@[simp] theorem State.writeReg_acc (s : State) (r : Fin numReg) (v : Word) :
    (s.writeReg r v).acc = s.acc := rfl
@[simp] theorem State.writeReg_pc (s : State) (r : Fin numReg) (v : Word) :
    (s.writeReg r v).pc = s.pc := rfl
@[simp] theorem State.writeReg_icount (s : State) (r : Fin numReg) (v : Word) :
    (s.writeReg r v).icount = s.icount := rfl
@[simp] theorem State.writeReg_status (s : State) (r : Fin numReg) (v : Word) :
    (s.writeReg r v).status = s.status := rfl
@[simp] theorem State.writeReg_trace (s : State) (r : Fin numReg) (v : Word) :
    (s.writeReg r v).trace = s.trace := rfl

/-! ### writeAcc -/

@[simp] theorem State.writeAcc_program (s : State) (v : Word) :
    (s.writeAcc v).program = s.program := rfl
@[simp] theorem State.writeAcc_obsStart (s : State) (v : Word) :
    (s.writeAcc v).obsStart = s.obsStart := rfl
@[simp] theorem State.writeAcc_obsEnd (s : State) (v : Word) :
    (s.writeAcc v).obsEnd = s.obsEnd := rfl
@[simp] theorem State.writeAcc_addrPolicy (s : State) (v : Word) :
    (s.writeAcc v).addrPolicy = s.addrPolicy := rfl
@[simp] theorem State.writeAcc_regs (s : State) (v : Word) :
    (s.writeAcc v).regs = s.regs := rfl
@[simp] theorem State.writeAcc_mem (s : State) (v : Word) :
    (s.writeAcc v).mem = s.mem := rfl
@[simp] theorem State.writeAcc_acc (s : State) (v : Word) :
    (s.writeAcc v).acc = v := rfl
@[simp] theorem State.writeAcc_pc (s : State) (v : Word) :
    (s.writeAcc v).pc = s.pc := rfl
@[simp] theorem State.writeAcc_icount (s : State) (v : Word) :
    (s.writeAcc v).icount = s.icount := rfl
@[simp] theorem State.writeAcc_status (s : State) (v : Word) :
    (s.writeAcc v).status = s.status := rfl
@[simp] theorem State.writeAcc_trace (s : State) (v : Word) :
    (s.writeAcc v).trace = s.trace := rfl

/-! ### memWrite -/

@[simp] theorem State.memWrite_program (s : State) (k : Fin numMem) (v : Word) :
    (s.memWrite k v).program = s.program := rfl
@[simp] theorem State.memWrite_obsStart (s : State) (k : Fin numMem) (v : Word) :
    (s.memWrite k v).obsStart = s.obsStart := rfl
@[simp] theorem State.memWrite_obsEnd (s : State) (k : Fin numMem) (v : Word) :
    (s.memWrite k v).obsEnd = s.obsEnd := rfl
@[simp] theorem State.memWrite_addrPolicy (s : State) (k : Fin numMem) (v : Word) :
    (s.memWrite k v).addrPolicy = s.addrPolicy := rfl
@[simp] theorem State.memWrite_regs (s : State) (k : Fin numMem) (v : Word) :
    (s.memWrite k v).regs = s.regs := rfl
@[simp] theorem State.memWrite_mem (s : State) (k : Fin numMem) (v : Word) :
    (s.memWrite k v).mem = s.mem.write k v := rfl
@[simp] theorem State.memWrite_acc (s : State) (k : Fin numMem) (v : Word) :
    (s.memWrite k v).acc = s.acc := rfl
@[simp] theorem State.memWrite_pc (s : State) (k : Fin numMem) (v : Word) :
    (s.memWrite k v).pc = s.pc := rfl
@[simp] theorem State.memWrite_icount (s : State) (k : Fin numMem) (v : Word) :
    (s.memWrite k v).icount = s.icount := rfl
@[simp] theorem State.memWrite_status (s : State) (k : Fin numMem) (v : Word) :
    (s.memWrite k v).status = s.status := rfl
@[simp] theorem State.memWrite_trace (s : State) (k : Fin numMem) (v : Word) :
    (s.memWrite k v).trace = s.trace := rfl

/-! ### advance -/

@[simp] theorem State.advance_program (s : State) (n : Nat) :
    (s.advance n).program = s.program := rfl
@[simp] theorem State.advance_obsStart (s : State) (n : Nat) :
    (s.advance n).obsStart = s.obsStart := rfl
@[simp] theorem State.advance_obsEnd (s : State) (n : Nat) :
    (s.advance n).obsEnd = s.obsEnd := rfl
@[simp] theorem State.advance_addrPolicy (s : State) (n : Nat) :
    (s.advance n).addrPolicy = s.addrPolicy := rfl
@[simp] theorem State.advance_regs (s : State) (n : Nat) :
    (s.advance n).regs = s.regs := rfl
@[simp] theorem State.advance_mem (s : State) (n : Nat) :
    (s.advance n).mem = s.mem := rfl
@[simp] theorem State.advance_acc (s : State) (n : Nat) :
    (s.advance n).acc = s.acc := rfl
@[simp] theorem State.advance_pc (s : State) (n : Nat) :
    (s.advance n).pc = s.pc + n := rfl
@[simp] theorem State.advance_icount (s : State) (n : Nat) :
    (s.advance n).icount = s.icount + 1 := rfl
@[simp] theorem State.advance_status (s : State) (n : Nat) :
    (s.advance n).status = s.status := rfl
@[simp] theorem State.advance_trace (s : State) (n : Nat) :
    (s.advance n).trace = s.trace := rfl

/-! ### emitTrace -/

@[simp] theorem State.emitTrace_program (s : State) :
    s.emitTrace.program = s.program := rfl
@[simp] theorem State.emitTrace_obsStart (s : State) :
    s.emitTrace.obsStart = s.obsStart := rfl
@[simp] theorem State.emitTrace_obsEnd (s : State) :
    s.emitTrace.obsEnd = s.obsEnd := rfl
@[simp] theorem State.emitTrace_addrPolicy (s : State) :
    s.emitTrace.addrPolicy = s.addrPolicy := rfl
@[simp] theorem State.emitTrace_regs (s : State) :
    s.emitTrace.regs = s.regs := rfl
@[simp] theorem State.emitTrace_mem (s : State) :
    s.emitTrace.mem = s.mem := rfl
@[simp] theorem State.emitTrace_acc (s : State) :
    s.emitTrace.acc = s.acc := rfl
@[simp] theorem State.emitTrace_pc (s : State) :
    s.emitTrace.pc = s.pc := rfl
@[simp] theorem State.emitTrace_icount (s : State) :
    s.emitTrace.icount = s.icount := rfl
@[simp] theorem State.emitTrace_status (s : State) :
    s.emitTrace.status = s.status := rfl
@[simp] theorem State.emitTrace_trace (s : State) :
    s.emitTrace.trace = s.trace ++ [s.traceRecord] := rfl

/-! ### raise -/

@[simp] theorem State.raise_program (s : State) (c : FaultCause) :
    (s.raise c).program = s.program := rfl
@[simp] theorem State.raise_obsStart (s : State) (c : FaultCause) :
    (s.raise c).obsStart = s.obsStart := rfl
@[simp] theorem State.raise_obsEnd (s : State) (c : FaultCause) :
    (s.raise c).obsEnd = s.obsEnd := rfl
@[simp] theorem State.raise_addrPolicy (s : State) (c : FaultCause) :
    (s.raise c).addrPolicy = s.addrPolicy := rfl
@[simp] theorem State.raise_regs (s : State) (c : FaultCause) :
    (s.raise c).regs = s.regs := rfl
@[simp] theorem State.raise_mem (s : State) (c : FaultCause) :
    (s.raise c).mem = s.mem := rfl
@[simp] theorem State.raise_acc (s : State) (c : FaultCause) :
    (s.raise c).acc = s.acc := rfl
@[simp] theorem State.raise_pc (s : State) (c : FaultCause) :
    (s.raise c).pc = s.pc := rfl
@[simp] theorem State.raise_icount (s : State) (c : FaultCause) :
    (s.raise c).icount = s.icount := rfl
@[simp] theorem State.raise_status (s : State) (c : FaultCause) :
    (s.raise c).status = .faulted ⟨c, s.pc, s.icount⟩ := rfl
@[simp] theorem State.raise_trace (s : State) (c : FaultCause) :
    (s.raise c).trace = s.trace := rfl

/-! ### halt -/

@[simp] theorem State.halt_program (s : State) :
    s.halt.program = s.program := rfl
@[simp] theorem State.halt_obsStart (s : State) :
    s.halt.obsStart = s.obsStart := rfl
@[simp] theorem State.halt_obsEnd (s : State) :
    s.halt.obsEnd = s.obsEnd := rfl
@[simp] theorem State.halt_addrPolicy (s : State) :
    s.halt.addrPolicy = s.addrPolicy := rfl
@[simp] theorem State.halt_regs (s : State) :
    s.halt.regs = s.regs := rfl
@[simp] theorem State.halt_mem (s : State) :
    s.halt.mem = s.mem := rfl
@[simp] theorem State.halt_acc (s : State) :
    s.halt.acc = s.acc := rfl
@[simp] theorem State.halt_pc (s : State) :
    s.halt.pc = s.pc := rfl
@[simp] theorem State.halt_icount (s : State) :
    s.halt.icount = s.icount := rfl
@[simp] theorem State.halt_status (s : State) :
    s.halt.status = .halted := rfl
@[simp] theorem State.halt_trace (s : State) :
    s.halt.trace = s.trace := rfl

/-! ### load -/

@[simp] theorem State.load_program (s : State) (r : Fin numReg) (v : Word) :
    (s.load r v).program = s.program := rfl
@[simp] theorem State.load_obsStart (s : State) (r : Fin numReg) (v : Word) :
    (s.load r v).obsStart = s.obsStart := rfl
@[simp] theorem State.load_obsEnd (s : State) (r : Fin numReg) (v : Word) :
    (s.load r v).obsEnd = s.obsEnd := rfl
@[simp] theorem State.load_addrPolicy (s : State) (r : Fin numReg) (v : Word) :
    (s.load r v).addrPolicy = s.addrPolicy := rfl
@[simp] theorem State.load_regs (s : State) (r : Fin numReg) (v : Word) :
    (s.load r v).regs = s.regs.set r v := rfl
@[simp] theorem State.load_mem (s : State) (r : Fin numReg) (v : Word) :
    (s.load r v).mem = s.mem := rfl
@[simp] theorem State.load_acc (s : State) (r : Fin numReg) (v : Word) :
    (s.load r v).acc = v := rfl
@[simp] theorem State.load_pc (s : State) (r : Fin numReg) (v : Word) :
    (s.load r v).pc = s.pc := rfl
@[simp] theorem State.load_icount (s : State) (r : Fin numReg) (v : Word) :
    (s.load r v).icount = s.icount := rfl
@[simp] theorem State.load_status (s : State) (r : Fin numReg) (v : Word) :
    (s.load r v).status = s.status := rfl
@[simp] theorem State.load_trace (s : State) (r : Fin numReg) (v : Word) :
    (s.load r v).trace = s.trace := rfl

/-! ### retire -/

@[simp] theorem State.retire_program (s : State) (m : Mnemonic) :
    (s.retire m).program = s.program := rfl
@[simp] theorem State.retire_obsStart (s : State) (m : Mnemonic) :
    (s.retire m).obsStart = s.obsStart := rfl
@[simp] theorem State.retire_obsEnd (s : State) (m : Mnemonic) :
    (s.retire m).obsEnd = s.obsEnd := rfl
@[simp] theorem State.retire_addrPolicy (s : State) (m : Mnemonic) :
    (s.retire m).addrPolicy = s.addrPolicy := rfl
@[simp] theorem State.retire_regs (s : State) (m : Mnemonic) :
    (s.retire m).regs = s.regs := rfl
@[simp] theorem State.retire_mem (s : State) (m : Mnemonic) :
    (s.retire m).mem = s.mem := rfl
@[simp] theorem State.retire_acc (s : State) (m : Mnemonic) :
    (s.retire m).acc = s.acc := rfl
@[simp] theorem State.retire_pc (s : State) (m : Mnemonic) :
    (s.retire m).pc = s.pc + m.length := rfl
@[simp] theorem State.retire_icount (s : State) (m : Mnemonic) :
    (s.retire m).icount = s.icount + 1 := rfl
@[simp] theorem State.retire_status (s : State) (m : Mnemonic) :
    (s.retire m).status = s.status := rfl
@[simp] theorem State.retire_trace (s : State) (m : Mnemonic) :
    (s.retire m).trace = s.trace ++ [s.traceRecord] := rfl

/-! ### Reading registers and cells back -/

@[simp] theorem State.readReg_writeReg_same (s : State) (r : Fin numReg) (v : Word) :
    (s.writeReg r v).readReg r = v := by simp [State.readReg]

theorem State.readReg_writeReg_other (s : State) {r q : Fin numReg} (v : Word) (h : q ≠ r) :
    (s.writeReg r v).readReg q = s.readReg q := by
  have : (r : Nat) ≠ q := fun e => h (Fin.ext e.symm)
  simp [State.readReg, this]

@[simp] theorem State.readReg_writeAcc (s : State) (q : Fin numReg) (v : Word) :
    (s.writeAcc v).readReg q = s.readReg q := rfl

@[simp] theorem State.readReg_memWrite (s : State) (q : Fin numReg) (k : Fin numMem) (v : Word) :
    (s.memWrite k v).readReg q = s.readReg q := rfl

@[simp] theorem State.readReg_advance (s : State) (q : Fin numReg) (n : Nat) :
    (s.advance n).readReg q = s.readReg q := rfl

@[simp] theorem State.readReg_emitTrace (s : State) (q : Fin numReg) :
    s.emitTrace.readReg q = s.readReg q := rfl

@[simp] theorem State.readReg_raise (s : State) (q : Fin numReg) (c : FaultCause) :
    (s.raise c).readReg q = s.readReg q := rfl

@[simp] theorem State.readReg_halt (s : State) (q : Fin numReg) :
    s.halt.readReg q = s.readReg q := rfl

@[simp] theorem State.readReg_retire (s : State) (q : Fin numReg) (m : Mnemonic) :
    (s.retire m).readReg q = s.readReg q := rfl

@[simp] theorem State.readReg_load (s : State) (r q : Fin numReg) (v : Word) :
    (s.load r v).readReg q = (s.writeReg r v).readReg q := rfl

/-! ### The trace record depends on the observed state alone -/

@[simp] theorem State.traceRecord_advance (s : State) (n : Nat) :
    (s.advance n).traceRecord = s.traceRecord := rfl

@[simp] theorem State.traceRecord_retire (s : State) (m : Mnemonic) :
    (s.retire m).traceRecord = s.traceRecord := rfl

@[simp] theorem State.traceRecord_acc (s : State) : s.traceRecord.acc = s.acc := rfl

@[simp] theorem State.traceRecord_cells (s : State) : s.traceRecord.cells = s.observedCells := rfl

@[simp] theorem State.traceRecord_regs (s : State) : s.traceRecord.regs = s.observedRegs := rfl

theorem State.observedCells_indices (s : State) :
    s.observedCells.map Prod.fst = List.range' s.obsStart (s.obsEnd + 1 - s.obsStart) := by
  simp [State.observedCells, Function.comp_def]

theorem State.observedRegs_get (s : State) (i : Fin traceRegs) :
    s.observedRegs[i] = s.readReg (i.castLE (by decide)) := by
  simp [State.observedRegs]

/-! ### Retirement -/

/-- Everything a retirement does. -/
theorem State.retire_eq (s : State) (m : Mnemonic) :
    s.retire m = { s with
      pc := s.pc + m.length
      icount := s.icount + 1
      trace := s.trace ++ [s.traceRecord] } := rfl

/-- Everything a fault does (R170, R175). -/
theorem State.raise_eq (s : State) (c : FaultCause) :
    s.raise c = { s with status := .faulted ⟨c, s.pc, s.icount⟩ } := rfl

end Sys2Proof.Machine
end

