-- ==== Sys2Proof/Laws/Exec.lean ====
section
/-! SUPPORT. What validation, the ALU and each instruction's meaning can do. -/

namespace Sys2Proof.Machine

open Sys2Proof.Config

/-! ### Integers and words -/

@[simp] theorem truncW_signedW (v : Word) : truncW (signedW v) = v := BitVec.ofInt_toInt

/-- The ALU's sum is addition of words (R155). -/
theorem aluAdd_eq (a b : Word) : aluAdd a b = a + b := by
  simp [aluAdd, truncW, signedW, BitVec.ofInt_add]

/-- The ALU's difference is subtraction of words (R158). -/
theorem aluSub_eq (a b : Word) : aluSub a b = a - b := by
  rw [BitVec.sub_eq_add_neg]
  simp [aluSub, truncW, signedW, Int.sub_eq_add_neg, BitVec.ofInt_add, BitVec.ofInt_neg]

/-- `GE` answers 0 or 1 and nothing else (R151). -/
theorem aluGe_cases (a b : Word) :
    (signedW b ≤ signedW a ∧ aluGe a b = 1) ∨ (signedW a < signedW b ∧ aluGe a b = 0) := by
  unfold aluGe
  split
  · exact .inl ⟨by assumption, rfl⟩
  · exact .inr ⟨by omega, rfl⟩

/-! ### Validation -/

theorem checkReg_lt (field : Operand) {v : Nat} (h : v < 32) : checkReg field v = .ok ⟨v, h⟩ :=
  dif_pos h

theorem checkReg_ge (field : Operand) {v : Nat} (h : 32 ≤ v) :
    checkReg field v = .error (.registerIndexOutOfRange field v) := dif_neg (Nat.not_lt.2 h)

theorem translate_reject_lt {a : Nat} (h : a < 1024) : translate .reject a = .ok ⟨a, h⟩ := dif_pos h

theorem translate_reject_ge {a : Nat} (h : 1024 ≤ a) :
    translate .reject a = .error (.memoryIndexOutOfRange .address a) := dif_neg (Nat.not_lt.2 h)

theorem translate_mask (a : Nat) : translate .mask a = .ok ⟨a % 1024, Nat.mod_lt _ (by decide)⟩ := rfl

theorem State.withReg_lt (s : State) (field : Operand) {v : Nat} (go : Fin numReg → Result)
    (h : v < 32) : s.withReg field v go = go ⟨v, h⟩ := by
  simp [State.withReg, checkReg_lt field h]

theorem State.withReg_ge (s : State) (field : Operand) {v : Nat} (go : Fin numReg → Result)
    (h : 32 ≤ v) : s.withReg field v go = .next (s.raise (.registerIndexOutOfRange field v)) := by
  simp [State.withReg, checkReg_ge field h]

theorem State.withCell_reject_lt (s : State) {a : Nat} (go : Fin numMem → Result)
    (hp : s.addrPolicy = .reject) (h : a < 1024) : s.withCell a go = go ⟨a, h⟩ := by
  simp [State.withCell, hp, translate_reject_lt h]

theorem State.withCell_reject_ge (s : State) {a : Nat} (go : Fin numMem → Result)
    (hp : s.addrPolicy = .reject) (h : 1024 ≤ a) :
    s.withCell a go = .next (s.raise (.memoryIndexOutOfRange .address a)) := by
  simp [State.withCell, hp, translate_reject_ge h]

theorem State.withCell_mask (s : State) (a : Nat) (go : Fin numMem → Result)
    (hp : s.addrPolicy = .mask) :
    s.withCell a go = go ⟨a % 1024, Nat.mod_lt _ (by decide)⟩ := by
  simp [State.withCell, hp, translate_mask]

/-- Everything a register check can do. -/
theorem State.withReg_cases (s : State) (field : Operand) (v : Nat) (go : Fin numReg → Result) :
    (∃ h : v < 32, s.withReg field v go = go ⟨v, h⟩) ∨
      (32 ≤ v ∧ s.withReg field v go = .next (s.raise (.registerIndexOutOfRange field v))) := by
  rcases Nat.lt_or_ge v 32 with h | h
  · exact .inl ⟨h, s.withReg_lt field go h⟩
  · exact .inr ⟨h, s.withReg_ge field go h⟩

/-- Everything an address check can do. -/
theorem State.withCell_cases (s : State) (a : Nat) (go : Fin numMem → Result) :
    (∃ k, translate s.addrPolicy a = .ok k ∧ s.withCell a go = go k) ∨
      (s.addrPolicy = .reject ∧ 1024 ≤ a ∧
        s.withCell a go = .next (s.raise (.memoryIndexOutOfRange .address a))) := by
  cases hp : s.addrPolicy with
  | reject =>
    rcases Nat.lt_or_ge a 1024 with h | h
    · exact .inl ⟨_, translate_reject_lt h, s.withCell_reject_lt go hp h⟩
    · exact .inr ⟨rfl, h, s.withCell_reject_ge go hp h⟩
  | mask => exact .inl ⟨_, translate_mask a, s.withCell_mask a go hp⟩

/-! ### Dispatch -/

theorem exec_loadConst (c : Int) (r : Nat) (s : State) :
    exec (.loadConst c r) s = execLoadConst c r s := rfl

theorem exec_loadMem (a r : Nat) (s : State) : exec (.loadMem a r) s = execLoadMem a r s := rfl

theorem exec_storeMem (r a : Nat) (s : State) : exec (.storeMem r a) s = execStoreMem r a s := rfl

theorem exec_geOp (a b r : Nat) (s : State) : exec (.geOp a b r) s = s.aluOp .geOp aluGe a b r := rfl

theorem exec_addOp (a b r : Nat) (s : State) : exec (.addOp a b r) s = s.aluOp .addOp aluAdd a b r := rfl

theorem exec_subOp (a b r : Nat) (s : State) : exec (.subOp a b r) s = s.aluOp .subOp aluSub a b r := rfl

/-! ### The meanings -/

/-- Everything LOAD_CONST can do. -/
theorem execLoadConst_cases (c : Int) (r : Nat) (s : State) :
    (∃ h : r < 32, execLoadConst c r s =
      .next ((s.load ⟨r, h⟩ (truncW c)).retire .loadConst)) ∨
    (32 ≤ r ∧ execLoadConst c r s =
      .next (s.raise (.registerIndexOutOfRange .destRegister r))) :=
  s.withReg_cases ..

/-- Everything LOAD_MEM can do. -/
theorem execLoadMem_cases (a r : Nat) (s : State) :
    (∃ k, ∃ h : r < 32, translate s.addrPolicy a = .ok k ∧
      execLoadMem a r s = .next ((s.load ⟨r, h⟩ (s.memRead k)).retire .loadMem)) ∨
    (s.addrPolicy = .reject ∧ 1024 ≤ a ∧
      execLoadMem a r s = .next (s.raise (.memoryIndexOutOfRange .address a))) ∨
    (32 ≤ r ∧ (∃ k, translate s.addrPolicy a = .ok k) ∧
      execLoadMem a r s = .next (s.raise (.registerIndexOutOfRange .destRegister r))) := by
  unfold execLoadMem
  rcases s.withCell_cases a _ with ⟨k, hk, e⟩ | ⟨hp, ha, e⟩
  · rw [e]
    rcases s.withReg_cases .destRegister r _ with ⟨h, e⟩ | ⟨h, e⟩
    · exact .inl ⟨k, h, hk, e⟩
    · exact .inr (.inr ⟨h, ⟨k, hk⟩, e⟩)
  · exact .inr (.inl ⟨hp, ha, e⟩)

/-- Everything STORE_MEM can do. -/
theorem execStoreMem_cases (r a : Nat) (s : State) :
    (∃ k, ∃ h : r < 32, translate s.addrPolicy a = .ok k ∧
      execStoreMem r a s = .next ((s.memWrite k (s.readReg ⟨r, h⟩)).retire .storeMem)) ∨
    (32 ≤ r ∧ execStoreMem r a s =
      .next (s.raise (.registerIndexOutOfRange .srcRegister r))) ∨
    (r < 32 ∧ s.addrPolicy = .reject ∧ 1024 ≤ a ∧
      execStoreMem r a s = .next (s.raise (.memoryIndexOutOfRange .address a))) := by
  unfold execStoreMem
  rcases s.withReg_cases .srcRegister r _ with ⟨h, e⟩ | ⟨h, e⟩
  · rw [e]
    rcases s.withCell_cases a _ with ⟨k, hk, e⟩ | ⟨hp, ha, e⟩
    · exact .inl ⟨k, h, hk, e⟩
    · exact .inr (.inr ⟨h, hp, ha, e⟩)
  · exact .inr (.inl ⟨h, e⟩)

/-- Everything an ALU instruction can do. -/
theorem State.aluOp_cases (s : State) (m : Mnemonic) (f : Word → Word → Word) (a b r : Nat) :
    (∃ (ha : a < 32) (hb : b < 32) (hr : r < 32), s.aluOp m f a b r =
      .next ((s.writeReg ⟨r, hr⟩ (f (s.readReg ⟨a, ha⟩) (s.readReg ⟨b, hb⟩))).retire m)) ∨
    (32 ≤ a ∧ s.aluOp m f a b r = .next (s.raise (.registerIndexOutOfRange .regA a))) ∨
    (a < 32 ∧ 32 ≤ b ∧
      s.aluOp m f a b r = .next (s.raise (.registerIndexOutOfRange .regB b))) ∨
    (a < 32 ∧ b < 32 ∧ 32 ≤ r ∧
      s.aluOp m f a b r = .next (s.raise (.registerIndexOutOfRange .regResult r))) := by
  unfold State.aluOp
  rcases s.withReg_cases .regA a _ with ⟨ha, e⟩ | ⟨ha, e⟩
  · rw [e]
    rcases s.withReg_cases .regB b _ with ⟨hb, e⟩ | ⟨hb, e⟩
    · rw [e]
      rcases s.withReg_cases .regResult r _ with ⟨hr, e⟩ | ⟨hr, e⟩
      · exact .inl ⟨ha, hb, hr, e⟩
      · exact .inr (.inr (.inr ⟨ha, hb, hr, e⟩))
    · exact .inr (.inr (.inl ⟨ha, hb, e⟩))
  · exact .inr (.inl ⟨ha, e⟩)

/-- What an instruction's own writes can be, before it retires: a load, a store of a register, or a write
of the result register. -/
inductive Writes : Instr → State → State → Prop
  | loadConst (c : Int) (s : State) (r : Fin numReg) :
    Writes (.loadConst c r) s (s.load r (truncW c))
  | loadMem (a : Nat) (s : State) (r : Fin numReg) (k : Fin numMem)
    (h : translate s.addrPolicy a = .ok k) : Writes (.loadMem a r) s (s.load r (s.memRead k))
  | storeMem (a : Nat) (s : State) (r : Fin numReg) (k : Fin numMem)
    (h : translate s.addrPolicy a = .ok k) :
    Writes (.storeMem r a) s (s.memWrite k (s.readReg r))
  | geOp (s : State) (a b r : Fin numReg) :
    Writes (.geOp a b r) s (s.writeReg r (aluGe (s.readReg a) (s.readReg b)))
  | addOp (s : State) (a b r : Fin numReg) :
    Writes (.addOp a b r) s (s.writeReg r (aluAdd (s.readReg a) (s.readReg b)))
  | subOp (s : State) (a b r : Fin numReg) :
    Writes (.subOp a b r) s (s.writeReg r (aluSub (s.readReg a) (s.readReg b)))

/-- The faults an instruction's validation can raise: a register field of it that names no register, or
under `Reject` its address when that names no cell. -/
def ValidationFault (i : Instr) (s : State) (cause : FaultCause) : Prop :=
  (∃ field value, cause = .registerIndexOutOfRange field value ∧ 32 ≤ value ∧
    (field, (value : Int)) ∈ i.mnemonic.operands.zip i.values ∧
    field ≠ .constant ∧ field ≠ .address) ∨
  (∃ value, cause = .memoryIndexOutOfRange .address value ∧ s.addrPolicy = .reject ∧
    1024 ≤ value ∧ ∃ r, i = .loadMem value r ∨ i = .storeMem r value)

/-- Everything `exec` can do: the instruction passes validation, writes and retires; or it fails validation
and takes the fault. -/
theorem exec_cases (i : Instr) (s : State) :
    (PassesValidation s.addrPolicy i ∧ ∃ u, Writes i s u ∧ exec i s = .next (u.retire i.mnemonic)) ∨
    (¬ PassesValidation s.addrPolicy i ∧
      ∃ cause, ValidationFault i s cause ∧ exec i s = .next (s.raise cause)) := by
  have cell : ∀ {a : Nat} {k : Fin numMem}, translate s.addrPolicy a = .ok k →
      (s.addrPolicy = .reject → a < 1024) := by
    intro a k hk hp
    rw [hp] at hk
    rcases Nat.lt_or_ge a 1024 with h | h
    · exact h
    · rw [translate_reject_ge h] at hk; cases hk
  have alu : ∀ (m : Mnemonic) (f : Word → Word → Word) (a b r : Nat),
      m.operands = [.regA, .regB, .regResult] → ∀ i : Instr, i.mnemonic = m →
      i.values = [(a : Int), b, r] →
      (PassesValidation s.addrPolicy i ↔ a < 32 ∧ b < 32 ∧ r < 32) →
      exec i s = s.aluOp m f a b r →
      (∀ (ha : a < 32) (hb : b < 32) (hr : r < 32), Writes i s
        (s.writeReg ⟨r, hr⟩ (f (s.readReg ⟨a, ha⟩) (s.readReg ⟨b, hb⟩)))) →
      (PassesValidation s.addrPolicy i ∧
        ∃ u, Writes i s u ∧ exec i s = .next (u.retire i.mnemonic)) ∨
      (¬ PassesValidation s.addrPolicy i ∧
        ∃ cause, ValidationFault i s cause ∧ exec i s = .next (s.raise cause)) := by
    intro m f a b r hops i hm hv hpass he hw
    rw [hpass, he]
    rcases s.aluOp_cases m f a b r with ⟨ha, hb, hr, e⟩ | ⟨h, e⟩ | ⟨-, h, e⟩ | ⟨-, -, h, e⟩
    · exact .inl ⟨⟨ha, hb, hr⟩, _, hw ha hb hr, by rw [e, hm]⟩
    all_goals
      exact .inr ⟨by omega, _, .inl ⟨_, _, rfl, h, by simp [hm, hops, hv], by decide, by decide⟩, e⟩
  cases i with
  | loadConst c r =>
    rcases execLoadConst_cases c r s with ⟨h, e⟩ | ⟨h, e⟩
    · exact .inl ⟨h, _, .loadConst c s ⟨r, h⟩, e⟩
    · exact .inr ⟨Nat.not_lt.2 h, _,
        .inl ⟨_, _, rfl, h, by simp [Instr.mnemonic, Mnemonic.operands, Instr.values],
          by decide, by decide⟩, e⟩
  | loadMem a r =>
    rcases execLoadMem_cases a r s with ⟨k, h, hk, e⟩ | ⟨hp, ha, e⟩ | ⟨h, -, e⟩
    · exact .inl ⟨⟨cell hk, h⟩, _, .loadMem a s ⟨r, h⟩ k hk, e⟩
    · exact .inr ⟨fun hv => absurd (hv.1 hp) (Nat.not_lt.2 ha), _,
        .inr ⟨a, rfl, hp, ha, r, .inl rfl⟩, e⟩
    · exact .inr ⟨fun hv => absurd hv.2 (Nat.not_lt.2 h), _,
        .inl ⟨_, _, rfl, h, by simp [Instr.mnemonic, Mnemonic.operands, Instr.values],
          by decide, by decide⟩, e⟩
  | storeMem r a =>
    rcases execStoreMem_cases r a s with ⟨k, h, hk, e⟩ | ⟨h, e⟩ | ⟨-, hp, ha, e⟩
    · exact .inl ⟨⟨h, cell hk⟩, _, .storeMem a s ⟨r, h⟩ k hk, e⟩
    · exact .inr ⟨fun hv => absurd hv.1 (Nat.not_lt.2 h), _,
        .inl ⟨_, _, rfl, h, by simp [Instr.mnemonic, Mnemonic.operands, Instr.values],
          by decide, by decide⟩, e⟩
    · exact .inr ⟨fun hv => absurd (hv.2 hp) (Nat.not_lt.2 ha), _,
        .inr ⟨a, rfl, hp, ha, r, .inr rfl⟩, e⟩
  | geOp a b r =>
    exact alu .geOp aluGe a b r rfl _ rfl rfl Iff.rfl rfl fun ha hb hr => .geOp s ⟨a, ha⟩ ⟨b, hb⟩ ⟨r, hr⟩
  | addOp a b r =>
    exact alu .addOp aluAdd a b r rfl _ rfl rfl Iff.rfl rfl fun ha hb hr => .addOp s ⟨a, ha⟩ ⟨b, hb⟩ ⟨r, hr⟩
  | subOp a b r =>
    exact alu .subOp aluSub a b r rfl _ rfl rfl Iff.rfl rfl fun ha hb hr => .subOp s ⟨a, ha⟩ ⟨b, hb⟩ ⟨r, hr⟩

/-- No write of an instruction touches the program, the configuration, `pc`, `icount`, the status or the
trace. -/
theorem Writes.keeps {i : Instr} {s u : State} (h : Writes i s u) :
    u.program = s.program ∧ u.obsStart = s.obsStart ∧ u.obsEnd = s.obsEnd ∧
    u.addrPolicy = s.addrPolicy ∧ u.pc = s.pc ∧ u.icount = s.icount ∧ u.status = s.status ∧
    u.trace = s.trace := by
  cases h <;> exact ⟨rfl, rfl, rfl, rfl, rfl, rfl, rfl, rfl⟩

end Sys2Proof.Machine
end

