-- ==== Sys2Proof/Laws/Memory.lean ====
section
/-! SUPPORT. The laws of the data memory: read after write, the canonical form, and equality of
canonical memories. -/

namespace Sys2Proof.Machine

@[simp] theorem Memory.read_nil (a : Nat) : Memory.read [] a = unlistedCell := rfl

@[simp] theorem Memory.read_cons (k a : Nat) (v : Word) (m : Memory) :
    Memory.read ((k, v) :: m) a = if k = a then v else Memory.read m a := rfl

theorem Memory.wf_nil : Memory.wf [] := ⟨List.Pairwise.nil, fun _ h => absurd h List.not_mem_nil⟩

theorem Memory.wf_tail {p : Nat × Word} {m : Memory} (h : Memory.wf (p :: m)) : Memory.wf m :=
  ⟨h.1.of_cons, fun q hq => h.2 q (List.mem_cons_of_mem _ hq)⟩

theorem Memory.wf_head_lt {p : Nat × Word} {m : Memory} (h : Memory.wf (p :: m)) :
    ∀ q ∈ m, p.1 < q.1 := fun _ => List.rel_of_pairwise_cons h.1

/-- A cell below every listed index holds the reset value. -/
theorem Memory.read_of_all_gt {m : Memory} {a : Nat} (h : ∀ q ∈ m, a < q.1) :
    m.read a = unlistedCell := by
  induction m with
  | nil => rfl
  | cons p m ih =>
    have := h p (List.mem_cons_self ..)
    rw [Memory.read_cons, if_neg (by omega)]
    exact ih fun q hq => h q (List.mem_cons_of_mem _ hq)

/-- A write changes no other cell (R54). -/
theorem Memory.read_write_other (m : Memory) {a b : Nat} (v : Word) (h : b ≠ a) :
    (m.write a v).read b = m.read b := by
  have hab : a ≠ b := fun e => h e.symm
  induction m with
  | nil => unfold Memory.write; split <;> simp [hab]
  | cons p m ih =>
    obtain ⟨k, w⟩ := p
    unfold Memory.write
    split
    · split <;> simp [hab]
    · split
      · subst_vars; split <;> simp [hab]
      · simp [ih]

/-- A read after a write to the same cell gives the value written (R54). -/
theorem Memory.read_write_same {m : Memory} (hm : m.wf) (a : Nat) (v : Word) :
    (m.write a v).read a = v := by
  induction m with
  | nil => unfold Memory.write; split <;> simp_all
  | cons p m ih =>
    obtain ⟨k, w⟩ := p
    have hlt := Memory.wf_head_lt hm
    unfold Memory.write
    split
    · split
      · rw [Memory.read_of_all_gt (a := a)]
        · simp_all
        · intro q hq
          rcases List.mem_cons.1 hq with rfl | hq
          · assumption
          · have := hlt q hq; simp only at this; omega
      · simp
    · split
      · split
        · rw [Memory.read_of_all_gt (a := a)]
          · simp_all
          · intro q hq; have := hlt q hq; simp only at this; omega
        · simp
      · rw [Memory.read_cons, if_neg (by omega)]
        exact ih (Memory.wf_tail hm)

/-- Every entry after a write is the written one or an old one. -/
theorem Memory.mem_write {m : Memory} {a : Nat} {v : Word} {p : Nat × Word}
    (h : p ∈ m.write a v) : (p = (a, v) ∧ v ≠ unlistedCell) ∨ p ∈ m := by
  induction m with
  | nil => unfold Memory.write at h; split at h <;> simp_all
  | cons q m ih =>
    obtain ⟨k, w⟩ := q
    unfold Memory.write at h
    split at h
    · split at h
      · exact .inr h
      · rcases List.mem_cons.1 h with h | h
        · exact .inl ⟨h, by assumption⟩
        · exact .inr h
    · split at h
      · split at h
        · exact .inr (List.mem_cons_of_mem _ h)
        · rcases List.mem_cons.1 h with h | h
          · exact .inl ⟨h, by assumption⟩
          · exact .inr (List.mem_cons_of_mem _ h)
      · rcases List.mem_cons.1 h with rfl | h
        · exact .inr (List.mem_cons_self ..)
        · exact (ih h).imp id (List.mem_cons_of_mem _)

/-- A write to a cell of the memory keeps the canonical form. -/
theorem Memory.write_wf {m : Memory} (hm : m.wf) {a : Nat} (ha : a < 1024) (v : Word) :
    (m.write a v).wf := by
  refine ⟨?_, fun p hp => ?_⟩
  · induction m with
    | nil => unfold Memory.write; split <;> simp
    | cons q m ih =>
      obtain ⟨k, w⟩ := q
      have hlt := Memory.wf_head_lt hm
      have htail := (Memory.wf_tail hm).1
      unfold Memory.write
      split
      · split
        · exact hm.1
        · refine List.pairwise_cons.2 ⟨fun p hp => ?_, hm.1⟩
          rcases List.mem_cons.1 hp with rfl | hp
          · assumption
          · have := hlt p hp; simp only at this ⊢; omega
      · split
        · split
          · exact htail
          · refine List.pairwise_cons.2 ⟨fun p hp => ?_, htail⟩
            have := hlt p hp; simp only at this ⊢; omega
        · refine List.pairwise_cons.2 ⟨fun p hp => ?_, ih (Memory.wf_tail hm)⟩
          rcases Memory.mem_write hp with ⟨rfl, -⟩ | hp
          · simp only; omega
          · exact hlt p hp
  · rcases Memory.mem_write hp with ⟨rfl, hv⟩ | hp
    · exact ⟨ha, hv⟩
    · exact hm.2 p hp

end Sys2Proof.Machine
end

