-- ==== Sys2Proof/Laws/PerInstr.lean ====
section
/-! SUPPORT. Statements made for every instruction, one lemma per constructor. -/

namespace Sys2Proof.Laws.EncodeShape

/-- The bytes of an instruction begin with its row's opcode and are as many as its length (R80, R91). -/
def Statement (i : Instr) : Prop :=
  (encode i).head? = some i.mnemonic.opcode ∧ (encode i).length = i.length

theorem loadConst (c : Int) (r : Nat) : Statement (.loadConst c r) := ⟨rfl, rfl⟩

theorem loadMem (a r : Nat) : Statement (.loadMem a r) := ⟨rfl, rfl⟩

theorem storeMem (r a : Nat) : Statement (.storeMem r a) := ⟨rfl, rfl⟩

theorem geOp (a b r : Nat) : Statement (.geOp a b r) := ⟨rfl, rfl⟩

theorem addOp (a b r : Nat) : Statement (.addOp a b r) := ⟨rfl, rfl⟩

theorem subOp (a b r : Nat) : Statement (.subOp a b r) := ⟨rfl, rfl⟩

end Sys2Proof.Laws.EncodeShape
end

