-- ==== Sys2Proof/Laws/Step.lean ====
section
/-! SUPPORT. What the fetch and one step can do. -/

namespace Sys2Proof.Machine

/-- The fetch finds an instruction exactly where the bytes at `pc` decode to one. -/
theorem State.fetch_eq_instr_iff (s : State) (i : Instr) : s.fetch = .instr i ↔ DecodesAt s i := by
  unfold State.fetch DecodesAt
  split
  · rename_i h
    refine ⟨fun h => (nomatch h), fun ⟨rest, hd⟩ => ?_⟩
    rw [List.drop_eq_nil_of_le (Nat.le_of_eq h.symm)] at hd
    cases hd
  · constructor
    · intro h
      split at h <;> cases h
      rename_i hd
      exact ⟨_, hd⟩
    · rintro ⟨rest, hd⟩
      rw [hd]

/-- The fetch at the end of the program (R94). -/
theorem State.fetch_eq_endOfStream_iff (s : State) :
    s.fetch = .endOfStream ↔ s.pc = s.program.length := by
  unfold State.fetch
  split
  · simp_all
  · split <;> simp_all

/-- A decoded instruction lies inside the program (R96). -/
theorem DecodesAt.inProgram {s : State} {i : Instr} (h : DecodesAt s i) :
    s.pc + i.length ≤ s.program.length := by
  obtain ⟨rest, hd⟩ := h
  obtain ⟨tail, hb, -, hlen, -⟩ := decode_eq_ok hd
  have : (s.program.drop s.pc).length ≠ 0 := by simp [hb]
  simp only [List.length_drop] at hlen this
  omega

/-- At most one instruction is stored at the program counter. -/
theorem DecodesAt.unique {s : State} {i j : Instr} (hi : DecodesAt s i) (hj : DecodesAt s j) : i = j := by
  obtain ⟨_, hi⟩ := hi
  obtain ⟨_, hj⟩ := hj
  rw [hi] at hj
  cases hj
  rfl

/-- Inside the program the fetch finds an instruction or a fault of the opcode or of the length. -/
theorem State.fetch_inside (s : State) (h : s.pc < s.program.length) :
    (∃ i, s.fetch = .instr i) ∨ (∃ op, s.fetch = .raises (.unknownOpcode op)) ∨
      ∃ op n k, s.fetch = .raises (.truncatedInstruction op n k) := by
  unfold State.fetch
  rw [if_neg (by omega)]
  split
  · exact .inl ⟨_, rfl⟩
  · rename_i hd
    have : s.program.drop s.pc ≠ [] := by simp; omega
    unfold decode at hd
    split at hd
    · exact absurd (by assumption) this
    · split at hd
      · cases hd
      · split at hd <;> cases hd
  · exact .inr (.inl ⟨_, rfl⟩)
  · exact .inr (.inr ⟨_, _, _, rfl⟩)

/-- The fetch raises only an unknown opcode or a truncation (R95, R96). -/
theorem State.fetch_eq_raises {s : State} {c : FaultCause} (h : s.fetch = .raises c) :
    (∃ op, c = .unknownOpcode op) ∨ ∃ op n k, c = .truncatedInstruction op n k := by
  unfold State.fetch at h
  split at h
  · cases h
  · split at h
    · cases h
    · cases h
    · cases h; exact .inl ⟨_, rfl⟩
    · cases h; exact .inr ⟨_, _, _, rfl⟩

/-- Everything a step that has a next state can do: halt at the end of the program, retire the decoded
instruction, fail its validation, or find no whole instruction. -/
theorem step_cases {s t : State} (h : step s = .next t) :
    s.status = .running ∧
    ((s.pc = s.program.length ∧ t = s.halt) ∨
     (∃ i u, DecodesAt s i ∧ PassesValidation s.addrPolicy i ∧ Writes i s u ∧
       t = u.retire i.mnemonic) ∨
     (∃ i c, DecodesAt s i ∧ ¬ PassesValidation s.addrPolicy i ∧ ValidationFault i s c ∧
       t = s.raise c) ∨
     (∃ c, s.fetch = .raises c ∧ t = s.raise c)) := by
  unfold step at h
  split at h
  · cases h
  · cases h
  · rename_i hs
    refine ⟨hs, ?_⟩
    split at h
    · rename_i hf
      cases h
      exact .inl ⟨(s.fetch_eq_endOfStream_iff).1 hf, rfl⟩
    · rename_i i hf
      have hd := (s.fetch_eq_instr_iff i).1 hf
      rcases exec_cases i s with ⟨hp, u, hw, e⟩ | ⟨hp, c, hv, e⟩
      · rw [e] at h; cases h
        exact .inr (.inl ⟨i, u, hd, hp, hw, rfl⟩)
      · rw [e] at h; cases h
        exact .inr (.inr (.inl ⟨i, c, hd, hp, hv, rfl⟩))
    · rename_i c hf
      cases h
      exact .inr (.inr (.inr ⟨c, hf, rfl⟩))
    · cases h

end Sys2Proof.Machine
end

