-- ==== Sys2Proof/Tests/Slice0.lean ====
section
/-! SUPPORT. Small tests with results taken from the spec's own examples (95_test_vectors.md, the worked
examples of the rules), and a witness for the hypotheses of every statement that has some. -/

namespace Sys2Proof.Tests

open Sys2Proof Sys2Proof.Machine

/-! ### Helpers -/

/-- A run of these bytes under the observation range 0:0 and the default policy. -/
def prog (bytes : List Byte) : State := State.start ⟨bytes, 0, 0, none⟩

/-- The same under `Mask`. -/
def progMask (bytes : List Byte) : State := State.start ⟨bytes, 0, 0, some .mask⟩

/-- The next state of an answer, if it has one. -/
def ran : Result → Option State
  | .next s => some s
  | .fault _ => none
  | .refused _ => none

/-- Runs one step and looks at the next state. -/
def after (s : State) (look : State → Bool) : Bool := (ran (step s)).any look

/-- Runs `k` steps and looks at the state reached. -/
def afterRun (k : Nat) (s : State) (look : State → Bool) : Bool :=
  (ran (Sys2Proof.core.run k s)).any look

/-- `x[0]` and `x[1]` set. -/
def pair (s : State) (a b : Int) : State :=
  (s.writeReg 0 (BitVec.ofInt 32 a)).writeReg 1 (BitVec.ofInt 32 b)

theorem next_of_any {r : Result} {look : State → Bool} (h : (ran r).any look = true) :
    ∃ t, r = .next t ∧ look t = true := by
  cases r with
  | next s => exact ⟨s, rfl, h⟩
  | fault _ => cases h
  | refused _ => cases h

/-! ### WellFormed refuses each ill-formed operand (R108) -/

theorem test_wellFormed_constant_high : Instr.wellFormed (.loadConst 2147483648 0) = false := by decide
theorem test_wellFormed_constant_low : Instr.wellFormed (.loadConst (-2147483649) 0) = false := by decide
theorem test_wellFormed_loadConst_register : Instr.wellFormed (.loadConst 0 256) = false := by decide
theorem test_wellFormed_loadMem_address : Instr.wellFormed (.loadMem 4294967296 0) = false := by decide
theorem test_wellFormed_loadMem_register : Instr.wellFormed (.loadMem 0 256) = false := by decide
theorem test_wellFormed_storeMem_register : Instr.wellFormed (.storeMem 256 0) = false := by decide
theorem test_wellFormed_storeMem_address : Instr.wellFormed (.storeMem 0 4294967296) = false := by decide
theorem test_wellFormed_regA : Instr.wellFormed (.geOp 256 0 0) = false := by decide
theorem test_wellFormed_regB : Instr.wellFormed (.addOp 0 256 0) = false := by decide
theorem test_wellFormed_regResult : Instr.wellFormed (.subOp 0 0 256) = false := by decide
theorem test_wellFormed_accepts :
    ([.loadConst (-2147483648) 255, .loadConst 2147483647 0, .loadMem 4294967295 255,
      .storeMem 255 4294967295, .geOp 255 255 255] : List Instr).all Instr.wellFormed = true := by decide

/-! ### Decoding, words written out from R82 to R85 (95_test_vectors.md 2.1) -/

theorem test_decode_loadConst : (decode [0x01, 0x05, 0x00, 0x00, 0x00, 0x00]).toOption =
    some (.loadConst 5 0, []) := by decide
theorem test_decode_loadConst_negative : (decode [0x01, 0x00, 0x00, 0x00, 0x80, 0x00]).toOption =
    some (.loadConst (-2147483648) 0, []) := by decide
theorem test_decode_loadMem : (decode [0x02, 0xFF, 0x03, 0x00, 0x00, 0x04, 0xAA]).toOption =
    some (.loadMem 1023 4, [0xAA]) := by decide
theorem test_decode_storeMem : (decode [0x03, 0x03, 0xFF, 0x03, 0x00, 0x00]).toOption =
    some (.storeMem 3 1023, []) := by decide
theorem test_decode_geOp : (decode [0x04, 0x04, 0x03, 0x05]).toOption = some (.geOp 4 3 5, []) := by decide
theorem test_decode_addOp : (decode [0x05, 0x00, 0x00, 0x01]).toOption = some (.addOp 0 0 1, []) := by decide
theorem test_decode_subOp : (decode [0x06, 0x01, 0x00, 0x02]).toOption = some (.subOp 1 0 2, []) := by decide
theorem test_decode_register_field_255 : (decode [0x05, 0xFF, 0x20, 0x1F]).toOption =
    some (.addOp 255 32 31, []) := by decide
theorem test_decode_unknown : (decode [0x07]).toOption = none := by decide
theorem test_decode_truncated : (decode [0x01, 0x05, 0x00]).toOption = none := by decide
theorem test_encode_storeMem : encode (.storeMem 3 1023) = [0x03, 0x03, 0xFF, 0x03, 0x00, 0x00] := by decide
theorem test_encode_loadConst : encode (.loadConst (-7) 3) = [0x01, 0xF9, 0xFF, 0xFF, 0xFF, 0x03] := by decide

/-- The table word of `SUB_OP 1 0 2`, byte 0 in its low bits (R81). -/
theorem test_decodeTableWord : decodeTableWord 32 0x02000106 = some (.subOp 1 0 2) := by decide
theorem test_decodeTableWord_short : decodeTableWord 8 0x03 = some (.storeMem 0 0) := by decide
theorem test_withFetchWord :
    after (State.reset.withFetchWord 48 0x1F7FFFFFFF01) (fun t =>
      t.readReg 31 == 0x7FFFFFFF && t.acc == 0x7FFFFFFF && t.pc == 6) = true := by decide

/-! ### The instructions (95_test_vectors.md 2.3, 2.4 and the worked examples of the rules) -/

theorem test_loadConst : after (prog [0x01, 0x05, 0x00, 0x00, 0x00, 0x00]) (fun t =>
    t.readReg 0 == 5 && t.acc == 5 && t.pc == 6 && t.icount == 1 &&
      t.trace.map (fun r => (r.cells, r.acc)) == [([(0, 0)], 5)]) = true := by decide
theorem test_loadConst_register_32 : after (prog [0x01, 0x05, 0x00, 0x00, 0x00, 0x20]) (fun t =>
    t.status == .faulted ⟨.registerIndexOutOfRange .destRegister 32, 0, 0⟩ && t.acc == 0 &&
      t.trace == []) = true := by decide
theorem test_loadMem : after ((prog [0x02, 0x07, 0x00, 0x00, 0x00, 0x04]).memWrite 7 (BitVec.ofInt 32 (-3)))
    (fun t => t.readReg 4 == 0xFFFFFFFD && t.acc == 0xFFFFFFFD && t.mem.read 7 == 0xFFFFFFFD) = true := by
  decide
theorem test_loadMem_mask_top :
    after ((progMask [0x02, 0xFF, 0xFF, 0xFF, 0xFF, 0x02]).memWrite 1023 6) (fun t =>
      t.readReg 2 == 6 && t.acc == 6) = true := by decide
theorem test_storeMem :
    after (((prog [0x03, 0x00, 0x00, 0x00, 0x00, 0x00]).writeReg 0 9).writeAcc 4) (fun t =>
      t.mem.read 0 == 9 && t.acc == 4 &&
        t.trace.map (fun r => (r.cells, r.acc)) == [([(0, 9)], 4)]) = true := by decide
theorem test_storeMem_mask :
    after ((progMask [0x03, 0x00, 0x01, 0x04, 0x00, 0x00]).writeReg 0 9) (fun t =>
      t.mem.read 1 == 9 && t.mem.read 0 == 0) = true := by decide
theorem test_geOp_signed : after (pair (prog [0x04, 0x00, 0x01, 0x02]) (-1) 0) (fun t =>
    t.readReg 2 == 0 && t.pc == 4) = true := by decide
theorem test_geOp_extremes : after (pair (prog [0x04, 0x00, 0x01, 0x00]) 2147483647 (-2147483648)) (fun t =>
    t.readReg 0 == 1) = true := by decide
theorem test_addOp_wraps : after (pair (prog [0x05, 0x00, 0x01, 0x02]) 2147483647 1) (fun t =>
    t.readReg 2 == 0x80000000 && t.status == .running) = true := by decide
theorem test_addOp_in_place : after (pair (prog [0x05, 0x00, 0x00, 0x00]) 6 0) (fun t =>
    t.readReg 0 == 12) = true := by decide
theorem test_subOp_wraps : after (pair (prog [0x06, 0x00, 0x01, 0x02]) (-2147483648) 1) (fun t =>
    t.readReg 2 == 0x7FFFFFFF) = true := by decide
theorem test_subOp_order : after (pair (prog [0x06, 0x01, 0x00, 0x02]) 5 10) (fun t =>
    t.readReg 2 == 5) = true := by decide

/-! ### Faults, halt and start (95_test_vectors.md 2.2, 2.5) -/

theorem test_unknown_before_truncated : after (prog [0x07]) (fun t =>
    t.status == .faulted ⟨.unknownOpcode 0x07, 0, 0⟩) = true := by decide
theorem test_truncated : after (prog [0x01, 0x05, 0x00]) (fun t =>
    t.status == .faulted ⟨.truncatedInstruction 0x01 5 2, 0, 0⟩ && t.trace == []) = true := by decide
theorem test_address_checked_first : after (prog [0x02, 0x88, 0x13, 0x00, 0x00, 0x28]) (fun t =>
    t.status == .faulted ⟨.memoryIndexOutOfRange .address 5000, 0, 0⟩) = true := by decide
theorem test_register_checked_first : after (prog [0x03, 0x28, 0x88, 0x13, 0x00, 0x00]) (fun t =>
    t.status == .faulted ⟨.registerIndexOutOfRange .srcRegister 40, 0, 0⟩) = true := by decide
theorem test_first_bad_operand : after (prog [0x05, 0x28, 0x29, 0x2A]) (fun t =>
    t.status == .faulted ⟨.registerIndexOutOfRange .regA 40, 0, 0⟩) = true := by decide
theorem test_empty_program_halts : after (prog []) (fun t => t.status == .halted && t.trace == []) = true := by
  decide
theorem test_range_reversed : (State.start ⟨[], 5, 3, none⟩).status =
    .faulted ⟨.invalidObservationRange 5 3, 0, 0⟩ := by decide
theorem test_range_never_masked : (State.start ⟨[0x01], 1024, 1024, some .mask⟩).status =
    .faulted ⟨.invalidObservationRange 1024 1024, 0, 0⟩ := by decide
theorem test_range_top : (State.start ⟨[], 1023, 1023, none⟩).status = .running := by decide
theorem test_memory_removes_reset_value :
    Memory.write (Memory.write (Memory.write [] 9 4) 3 7) 9 0 = [(3, 7)] := by decide

/-! ### The assembler (95_test_vectors.md S2, S8) -/

theorem test_assemble_unknown_line :
    assemble "LOAD_CONST 5 0\nFOO 1 2 3\n# note\nADD_OP 0 0 1 9\n".toList =
      ⟨[0x01, 0x05, 0x00, 0x00, 0x00, 0x00, 0x05, 0x00, 0x00, 0x01],
       [⟨.loadConst, 1, [("constant", 5), ("register", 0)]⟩,
        ⟨.addOp, 5, [("reg_a", 0), ("reg_b", 0), ("reg_result", 1)]⟩],
       [(2, .unknownInstruction)]⟩ := by decide
theorem test_assemble_negative_register : (assemble "  LOAD_CONST 5 -1".toList).binary =
    [0x01, 0x05, 0x00, 0x00, 0x00, 0xFF] := by decide
theorem test_assemble_errors : (assemble "GE_OP 1 2\nadd_op 1 2 3\nSUB_OP 1 x 3".toList).errors =
    [(1, .missingArguments), (2, .unknownInstruction), (3, .malformedOperand)] := by decide

/-! ### Witnesses: concrete states and operands that meet the hypotheses of the statements -/

theorem witness_EncodingRoundTrip :
    Instr.wellFormed (.loadConst (-2147483648) 255) = true ∧
    Instr.wellFormed (.loadConst 2147483647 0) = true ∧
    Instr.wellFormed (.storeMem 255 4294967295) = true := by decide

theorem witness_DecodedBytesAreTheEncoding :
    (decode [0x02, 0xFF, 0xFF, 0xFF, 0xFF, 0x02, 0x06]).toOption = some (.loadMem 4294967295 2, [0x06]) := by
  decide

/-- Opcode bytes at both ends of each range of the clauses. -/
theorem witness_OpcodeDecidesLength :
    (∀ op ∈ ([0x01, 0x03] : List Byte), (1 ≤ op.toNat ∧ op.toNat ≤ 3) ∧
      (decode (op :: [0, 0, 0, 0, 0])).toOption.isSome = true) ∧
    (∀ op ∈ ([0x04, 0x06] : List Byte), (4 ≤ op.toNat ∧ op.toNat ≤ 6) ∧
      (decode (op :: [0, 0, 0])).toOption.isSome = true) ∧
    (∀ op ∈ ([0x00, 0x07, 0xFF] : List Byte), (op.toNat = 0 ∨ 7 ≤ op.toNat)) := by decide

theorem witness_ConstantIsTwosComplement : (31#8).toNat < 32 := by decide

/-- A running state whose bytes decode (StepExecutesDecoded). -/
theorem witness_StepExecutesDecoded :
    (prog [0x06, 0x01, 0x00, 0x02]).status = .running ∧
    DecodesAt (prog [0x06, 0x01, 0x00, 0x02]) (.subOp 1 0 2) :=
  ⟨by decide, [], rfl⟩

theorem witness_UnknownOpcodeFaults :
    (prog [0xFF]).status = .running ∧ (prog [0xFF]).program[(prog [0xFF]).pc]? = some 0xFF ∧
    (prog [0x00]).program[(prog [0x00]).pc]? = some 0x00 ∧
    (prog [0x01]).program[(prog [0x01]).pc]? = some 0x01 := by decide

theorem witness_TruncationFaults :
    (prog [0x03, 0, 0, 0, 0]).status = .running ∧
    (prog [0x03, 0, 0, 0, 0]).program[(prog [0x03, 0, 0, 0, 0]).pc]? = some 0x03 ∧
    (prog [0x03, 0, 0, 0, 0]).program.length < (prog [0x03, 0, 0, 0, 0]).pc + 6 ∧
    (prog [0x04, 0, 0]).program[(prog [0x04, 0, 0]).pc]? = some 0x04 ∧
    (prog [0x04, 0, 0]).program.length < (prog [0x04, 0, 0]).pc + 4 := by decide

theorem witness_HaltAtEndOfProgram :
    (prog []).status = .running ∧ (prog []).pc = (prog []).program.length ∧
    ∃ t, step (prog []) = .next t ∧ decide (t.status = .halted) = true :=
  ⟨by decide, by decide, next_of_any (by decide)⟩

theorem witness_FinalStatusTakesNoStep :
    (prog []).halt.status = .halted ∧
    ((prog []).raise (.unknownOpcode 7)).status = .faulted ⟨.unknownOpcode 7, 0, 0⟩ := by decide

/-- Steps with a next state of each kind: retired, halted, faulted (FaultsArePrecise, FaultKeepsState,
PcAdvancesByLength, OneRecordPerInstruction, RunEndsWithinBound). -/
theorem witness_steps :
    (∃ t, step (prog [0x05, 0, 0, 1]) = .next t ∧ decide (t.status = .running) = true) ∧
    (∃ t, step (prog []) = .next t ∧ decide (t.status = .halted) = true) ∧
    (∃ t, step (prog [0x05, 0, 0, 32]) = .next t ∧
      decide (t.status = .faulted ⟨.registerIndexOutOfRange .regResult 32, 0, 0⟩) = true) :=
  ⟨next_of_any (by decide), next_of_any (by decide), next_of_any (by decide)⟩

theorem witness_StepIsTotal :
    (prog [0x05]).status = .running ∧ (prog [0x05]).pc ≤ (prog [0x05]).program.length ∧
    (prog []).pc ≤ (prog []).program.length := by decide

/-- The register and address bounds of the result statements (LoadConstResult, LoadMemResult,
StoreMemResult, GreaterEqualResult, AddResult, SubtractResult), TranslateByPolicy and
OperandsCheckedInOrder at their edges, under both policies. -/
theorem witness_results :
    (prog []).addrPolicy = .reject ∧ (progMask []).addrPolicy = .mask ∧
    (31 : Nat) < 32 ∧ (32 : Nat) ≤ 32 ∧ (1023 : Nat) < 1024 ∧ (1024 : Nat) ≤ 1024 := by decide

theorem witness_RegisterFaultCause :
    ∃ t, step (prog [0x01, 0, 0, 0, 0, 0xFF]) = .next t ∧
      decide (t.status = .faulted ⟨.registerIndexOutOfRange .destRegister 255, 0, 0⟩) = true :=
  next_of_any (by decide)

theorem witness_MemoryFaultCause :
    ∃ t, step (prog [0x02, 0, 4, 0, 0, 0]) = .next t ∧
      decide (t.status = .faulted ⟨.memoryIndexOutOfRange .address 1024, 0, 0⟩) = true :=
  next_of_any (by decide)

theorem witness_LoadFrame :
    (∃ t, exec (.loadConst (-1) 31) (prog []) = .next t ∧ decide (t.acc = 0xFFFFFFFF) = true) ∧
    (∃ t, exec (.loadMem 1024 0) (prog []) = .next t ∧ decide (t.pc = 0) = true) :=
  ⟨next_of_any (by decide), next_of_any (by decide)⟩

theorem witness_StoreFrame :
    (∃ t, exec (.storeMem 31 2047) (progMask []) = .next t ∧ decide (t.pc = 6) = true) ∧
    (∃ k, translate (progMask []).addrPolicy 2047 = .ok k) ∧
    (∃ t, exec (.storeMem 31 1024) (prog []) = .next t ∧ decide (t.pc = 0) = true) ∧
    (∃ cause, translate (prog []).addrPolicy 1024 = .error cause) :=
  ⟨next_of_any (by decide), ⟨_, rfl⟩, next_of_any (by decide), ⟨_, rfl⟩⟩

theorem witness_AluFrame :
    (∃ t, exec (.geOp 31 0 31) (prog []) = .next t ∧ decide (t.readReg 31 = 1) = true) ∧
    (∃ t, exec (.subOp 0 32 0) (prog []) = .next t ∧ decide (t.pc = 0) = true) :=
  ⟨next_of_any (by decide), next_of_any (by decide)⟩

/-- Canonical memories that are not empty (MemoryWriteSetsOneCell, CanonicalMemoriesEqual). -/
theorem witness_canonical : Memory.wf [(0, 5), (1023, 7)] ∧ Memory.wf [(3, 1)] := by decide

/-- A state the invariant holds in, in mid-run, with a memory that is not empty (CellHoldsLastStore,
StepKeepsInvariant). -/
def midRun : State :=
  { prog [0x03, 0x00, 0x07, 0x00, 0x00, 0x00, 0x03, 0x01, 0x07, 0x00, 0x00, 0x00] with
    regs := ((prog []).regs.set 0 5).set 1 6
    mem := [(7, 5)]
    pc := 6
    icount := 1
    trace := [⟨[(0, 0)], Vector.replicate 10 0, 0⟩] }

theorem witness_StepKeepsInvariant :
    midRun.Inv ∧ DecodesAt midRun (.storeMem 1 7) ∧
    ∃ t, step midRun = .next t ∧ decide (t.mem.read 7 = 6) = true :=
  ⟨⟨by decide, by decide, by decide, by decide, by decide, by decide, by decide, fun _ h => nomatch h⟩,
    ⟨[], rfl⟩, next_of_any (by decide)⟩

theorem witness_StoreLoadRoundTrip :
    (prog []).mem.wf ∧ (-2147483648 : Int) ≤ -2147483648 ∧ (31 : Nat) < 32 ∧ (1023 : Nat) < 1024 := by decide

/-- Registers `a = 0`, `b = 31` for both clauses of SubtractUndoesAdd: `r = 0`, then `r = 31`. -/
theorem witness_SubtractUndoesAdd :
    (0 : Nat) < 32 ∧ (31 : Nat) < 32 ∧ (0 : Nat) ≠ 31 ∧ (31 : Nat) = 31 := by decide

theorem witness_OnlyDestinationRegisterChanges :
    ∃ t, step (prog [0x01, 1, 0, 0, 0, 31]) = .next t ∧
      decide (t.readReg 31 ≠ (prog [0x01, 1, 0, 0, 0, 31]).readReg 31) = true :=
  next_of_any (by decide)

theorem witness_OnlyLoadsWriteAccumulator :
    ∃ t, step (prog [0x01, 1, 0, 0, 0, 31]) = .next t ∧
      decide (t.acc ≠ (prog [0x01, 1, 0, 0, 0, 31]).acc ∧ t.status = .running) = true :=
  next_of_any (by decide)

/-- A run of two instructions (AccumulatorInfluencesNothing, ObservationInfluencesNothing,
ProgramAndConfigurationConstant, TraceOnlyGrows): the source's scenario S1. -/
theorem witness_runs :
    ∃ t, Sys2Proof.core.run 2 (prog [0x01, 5, 0, 0, 0, 0, 0x05, 0, 0, 1]) = .next t ∧
      decide (t.readReg 1 = 10 ∧ t.icount = 2) = true :=
  next_of_any (by decide)

theorem witness_TraceRecordContents :
    (State.start ⟨[], 1020, 1023, none⟩).obsStart + 3 ≤ (State.start ⟨[], 1020, 1023, none⟩).obsEnd ∧
    (9 : Nat) < 10 := by decide

/-- Host inputs for each clause of StartOfRun at its edges. -/
theorem witness_StartOfRun :
    rangeLegal 0 0 ∧ rangeLegal 1023 1023 ∧ ¬ rangeLegal 0 1024 ∧ ¬ rangeLegal 5 3 := by decide

/-- The source's scenario S1 under a legal range: two valid instructions (HaltsExactlyWhenValid). -/
theorem witness_HaltsExactlyWhenValid :
    rangeLegal 0 0 ∧
    [0x01, 5, 0, 0, 0, 0, 0x05, 0, 0, 1] = [Instr.loadConst 5 0, .addOp 0 0 1].flatMap encode ∧
    ∀ i ∈ [Instr.loadConst 5 0, .addOp 0 0 1], i.wellFormed = true ∧ PassesValidation .reject i := by
  refine ⟨by decide, by decide, fun i hi => ?_⟩
  rcases List.mem_cons.1 hi with rfl | hi
  · exact ⟨by decide, show 0 < 32 by decide⟩
  · rcases List.mem_cons.1 hi with rfl | hi
    · exact ⟨by decide, show 0 < 32 ∧ 0 < 32 ∧ 1 < 32 by decide⟩
    · exact absurd hi List.not_mem_nil

/-- After that prefix, a tail that does not decode and one that fails validation
(FirstInvalidInstructionFaults). -/
theorem witness_FirstInvalidInstructionFaults :
    ([0x07] : List Byte) ≠ [] ∧
    (∀ i rest, decode [0x07] = .ok (i, rest) → ¬ PassesValidation .reject i) ∧
    ([0x02, 0, 4, 0, 0, 0] : List Byte) ≠ [] ∧
    (∀ i rest, decode [0x02, 0, 4, 0, 0, 0] = .ok (i, rest) → ¬ PassesValidation .reject i) := by
  have e0 : decode [0x07] = .error (.unknownOpcode 0x07) := rfl
  refine ⟨by decide, fun i rest h => by (rw [e0] at h; cases h), by decide, fun i rest h hv => ?_⟩
  have e : decode [0x02, 0, 4, 0, 0, 0] = .ok (.loadMem 1024 0, []) := rfl
  rw [e] at h
  cases h
  exact absurd (hv.1 rfl) (by decide)

theorem witness_PlacedWordRuns : decodeTableWord 48 0x000000050001 = some (.loadConst 1280 0) := by decide

/-- A line that assembles and the tokens of one that must, with a comment's tokens after the operands. -/
theorem witness_AssembledBinaryIsInstructions :
    splitTokens [] "SUB_OP 1 -2 +03 # x".toList =
      (mnemonicText .subOp).toList :: ["1".toList, "-2".toList, "+03".toList, "#".toList, "x".toList] ∧
    (["1".toList, "-2".toList, "+03".toList].map parseLiteral) = ([1, -2, 3] : List Int).map some ∧
    assembleLine "SUB_OP 1 -2 +03 # x".toList =
      .emitted [0x06, 0x01, 0xFE, 0x03] ⟨.subOp, 6, [("reg_a", 1), ("reg_b", -2), ("reg_result", 3)]⟩ := by
  decide

/-- One line for each clause of AssemblerLineErrors; the last has two malformed operand tokens (log 11). -/
theorem witness_AssemblerLineErrors :
    splitTokens [] " \t".toList = [] ∧ splitTokens [] " #x y".toList = ["#x".toList, "y".toList] ∧
    (∀ m, (mnemonicText m).toList ≠ "Ge_op".toList) ∧
    splitTokens [] "GE_OP 1 2".toList = (mnemonicText .geOp).toList :: ["1".toList, "2".toList] ∧
    (assemble "GE_OP 1 y z".toList).errors = [(1, .malformedOperand)] :=
  ⟨by decide, by decide, fun m => by cases m <;> decide, by decide, by decide⟩

theorem witness_LiteralSyntax :
    ([0, 9] : List (Fin 10)) ≠ [] ∧ parseLiteral "-09".toList = some (-9) := by decide

end Sys2Proof.Tests
end

