-- ==== Sys2Proof/Proofs/RunBound.lean ====
section
/-! PROOF. A step ends the run or advances `pc` by the length of the instruction it retires, so a run
ends within its bound (R17, R18, R92, R98). -/

namespace Sys2Proof

/-- Every instruction is at least four bytes long (R92). -/
theorem Instr.four_le_length (i : Instr) : 4 ≤ i.length := i.mnemonic.length_bounds.1

end Sys2Proof

namespace Sys2Proof.Machine

/-- A running block whose `pc` lies inside the program or at its end takes a step (R106). -/
theorem exists_step_of_running {s : State} (hs : s.status = .running)
    (hpc : s.pc ≤ s.program.length) : ∃ t, step s = .next t := by
  rcases Nat.eq_or_lt_of_le hpc with hend | hlt
  · exact ⟨s.halt, by simp only [step, hs, s.fetch_eq_endOfStream_iff.2 hend]⟩
  · rcases s.fetch_inside hlt with ⟨i, hf⟩ | ⟨op, hf⟩ | ⟨op, n, k, hf⟩
    · have hstep : step s = exec i s := by simp only [step, hs, hf]
      rcases exec_cases i s with ⟨-, u, -, e⟩ | ⟨-, c, -, e⟩
      · exact ⟨_, hstep.trans e⟩
      · exact ⟨_, hstep.trans e⟩
    · exact ⟨s.raise (.unknownOpcode op), by simp only [step, hs, hf]⟩
    · exact ⟨s.raise (.truncatedInstruction op n k), by simp only [step, hs, hf]⟩

/-- A step ends the run where it stands, or retires the decoded instruction: then `pc` moves past its
bytes, which lie in the same program (R29, R98, R100). -/
theorem step_ends_or_retires {s t : State} (h : step s = .next t) :
    (t.status ≠ .running ∧ t.pc = s.pc ∧ t.icount = s.icount) ∨
    (t.status = .running ∧ t.icount = s.icount + 1 ∧ t.program = s.program ∧
      ∃ i, DecodesAt s i ∧ t.pc = s.pc + i.length) := by
  obtain ⟨hs, ⟨-, rfl⟩ | ⟨i, u, hd, -, hw, rfl⟩ | ⟨-, c, -, -, -, rfl⟩ | ⟨c, -, rfl⟩⟩ := step_cases h
  case inr.inl =>
    obtain ⟨hprogram, -, -, -, hpc, hicount, hstatus, -⟩ := hw.keeps
    exact .inr ⟨hstatus.trans hs, by simp [hicount], hprogram, i, hd, by simp [hpc, Instr.length]⟩
  all_goals exact .inl ⟨by simp, rfl, rfl⟩

/-- A run that is over after `k` steps from the next state is over after `k + 1` steps. -/
theorem EndsAfter.of_step {s u t : State} {k : Nat} (h : step s = .next u) (hu : EndsAfter u k t) :
    EndsAfter s (k + 1) t :=
  ⟨(run_succ_of_step h k).trans hu.1, hu.2⟩

/-- From a running state the run ends within one step per four bytes left, and one more. -/
theorem exists_endsAfter_of_running {s : State} (hs : s.status = .running)
    (hpc : s.pc ≤ s.program.length) :
    ∃ k t, k ≤ (s.program.length - s.pc) / 4 + 1 ∧ EndsAfter s k t := by
  induction hn : s.program.length - s.pc using Nat.strong_induction_on generalizing s with
  | _ n ih =>
    obtain ⟨u, hu⟩ := exists_step_of_running hs hpc
    rcases step_ends_or_retires hu with ⟨hover, -, -⟩ | ⟨hrun, -, hprogram, i, hd, hmove⟩
    · exact ⟨1, u, by omega, EndsAfter.of_step hu ⟨run_zero u, hover⟩⟩
    · have hinside : u.pc ≤ u.program.length := by rw [hmove, hprogram]; exact hd.inProgram
      have hfewer : u.program.length - u.pc + 4 ≤ n := by
        have hlen := i.four_le_length
        rw [hprogram] at hinside ⊢
        omega
      obtain ⟨k, t, hk, hend⟩ := ih _ (by omega) hrun hinside rfl
      exact ⟨k + 1, t, by omega, EndsAfter.of_step hu hend⟩

/-- A run starts running at the first byte of the host's program, or already over, as the check of the
observation range decides (R102, R174). -/
theorem State.start_cases (h : HostInput) :
    ((State.start h).status = .running ∧ (State.start h).pc = 0 ∧
      (State.start h).program = h.program) ∨ (State.start h).status ≠ .running := by
  unfold State.start
  split
  · exact .inl ⟨rfl, rfl, rfl⟩
  · exact .inr (by simp)

/-- Settles O45: the run from the start by the bytes left, the movement of `pc` by the length of the
instruction that retires. -/
theorem runEndsWithinBound : Obligations.RunEndsWithinBound := by
  refine ⟨fun h => ?_, fun s t hstep => ?_⟩
  · rcases State.start_cases h with ⟨hrun, hpc, hprogram⟩ | hover
    · simpa [hpc, hprogram] using exists_endsAfter_of_running hrun (by omega)
    · exact ⟨0, _, Nat.zero_le _, run_zero _, hover⟩
  · rcases step_ends_or_retires hstep with ⟨-, hpc, hicount⟩ | ⟨-, -, -, i, -, hmove⟩
    · omega
    · have := i.four_le_length
      omega

end Sys2Proof.Machine
end

/-! PROOF. What an instruction and a step leave unchanged (R22, R29, R32, R35, R39, R51, R54, R100,
R103, R186). -/

namespace Sys2Proof

/-- The register an instruction writes: STORE_MEM writes none (R22). -/
def Instr.dest? : Instr → Option Nat
  | .loadConst _ r => some r
  | .loadMem _ r => some r
  | .storeMem _ _ => none
  | .geOp _ _ r => some r
  | .addOp _ _ r => some r
  | .subOp _ _ r => some r

/-- The instructions that write the accumulator (R32). -/
def Instr.isLoad : Instr → Bool
  | .loadConst _ _ => true
  | .loadMem _ _ => true
  | .storeMem _ _ => false
  | .geOp _ _ _ => false
  | .addOp _ _ _ => false
  | .subOp _ _ _ => false

end Sys2Proof

namespace Sys2Proof.Machine

open Sys2Proof.Config

/-! ### The writes of an instruction -/

/-- Only the destination register is written (R22). -/
theorem Writes.readReg_of_dest_ne {i : Instr} {s u : State} (h : Writes i s u) {q : Fin numReg}
    (hq : i.dest? ≠ some q.val) : u.readReg q = s.readReg q := by
  cases h
  case storeMem => rfl
  all_goals exact State.readReg_writeReg_other _ _ fun e => hq (e ▸ rfl)

/-- Only a load writes the accumulator (R32). -/
theorem Writes.acc_of_not_load {i : Instr} {s u : State} (h : Writes i s u)
    (hi : i.isLoad = false) : u.acc = s.acc := by
  cases h
  case loadConst | loadMem => cases hi
  all_goals rfl

/-- A load leaves the accumulator equal to the register it writes (R130, R134). -/
theorem Writes.acc_eq_dest_of_load {i : Instr} {s u : State} (h : Writes i s u)
    (hi : i.isLoad = true) {q : Fin numReg} (hq : i.dest? = some q.val) : u.acc = u.readReg q := by
  cases h
  case loadConst | loadMem =>
    obtain rfl := Fin.ext (Option.some.inj hq)
    simp
  all_goals cases hi

/-- Memory changes only by a store, in the cell its address translates to (R51, R54). -/
theorem Writes.mem_cases {i : Instr} {s u : State} (h : Writes i s u) :
    u.mem = s.mem ∨
      ∃ r a k v, i = .storeMem r a ∧ translate s.addrPolicy a = .ok k ∧ u.mem = s.mem.write k v := by
  cases h
  case storeMem a r k hk => exact .inr ⟨_, a, k, _, rfl, hk, rfl⟩
  all_goals exact .inl rfl

/-! ### The frame of `exec` -/

/-- An instruction with a next state writes and retires, or takes a fault. -/
theorem exec_retires_or_raises {i : Instr} {s t : State} (h : exec i s = .next t) :
    (∃ u, Writes i s u ∧ t = u.retire i.mnemonic) ∨ ∃ c, t = s.raise c := by
  rcases exec_cases i s with ⟨-, u, hw, e⟩ | ⟨-, c, -, e⟩ <;> cases h.symm.trans e
  · exact .inl ⟨u, hw, rfl⟩
  · exact .inr ⟨c, rfl⟩

/-- No instruction changes another register than its destination (R22). -/
theorem exec_readReg_of_dest_ne {i : Instr} {s t : State} (h : exec i s = .next t) {q : Fin numReg}
    (hq : i.dest? ≠ some q.val) : t.readReg q = s.readReg q := by
  rcases exec_retires_or_raises h with ⟨u, hw, rfl⟩ | ⟨c, rfl⟩
  · exact hw.readReg_of_dest_ne hq
  · rfl

/-- No instruction but a load changes the accumulator (R32). -/
theorem exec_acc_of_not_load {i : Instr} {s t : State} (h : exec i s = .next t)
    (hi : i.isLoad = false) : t.acc = s.acc := by
  rcases exec_retires_or_raises h with ⟨u, hw, rfl⟩ | ⟨c, rfl⟩
  · exact hw.acc_of_not_load hi
  · rfl

/-- Memory changes only by a store, in the cell its address translates to (R51, R54). -/
theorem exec_mem_cases {i : Instr} {s t : State} (h : exec i s = .next t) :
    t.mem = s.mem ∨
      ∃ r a k v, i = .storeMem r a ∧ translate s.addrPolicy a = .ok k ∧ t.mem = s.mem.write k v := by
  rcases exec_retires_or_raises h with ⟨u, hw, rfl⟩ | ⟨c, rfl⟩
  · exact hw.mem_cases
  · exact .inl rfl

/-- No instruction but a store changes memory (R51). -/
theorem exec_mem_of_not_store {i : Instr} {s t : State} (h : exec i s = .next t)
    (hi : ∀ r a, i ≠ .storeMem r a) : t.mem = s.mem := by
  rcases exec_mem_cases h with hm | ⟨r, a, -, -, rfl, -⟩
  · exact hm
  · exact absurd rfl (hi r a)

/-- What every instruction keeps: the program, the configuration, and all but the status when it faults;
one that retires keeps the status and appends the record of its next state (R35, R39, R100, R186). -/
theorem exec_frame {i : Instr} {s t : State} (h : exec i s = .next t) :
    t.program = s.program ∧ t.obsStart = s.obsStart ∧ t.obsEnd = s.obsEnd ∧
    t.addrPolicy = s.addrPolicy ∧
    ((t.status = s.status ∧ t.trace = s.trace ++ [t.traceRecord]) ∨
      (∃ cause, t = faultedAt s cause)) := by
  rcases exec_retires_or_raises h with ⟨u, hw, rfl⟩ | ⟨c, rfl⟩
  · obtain ⟨hprogram, hstart, hend, hpolicy, -, -, hstatus, htrace⟩ := hw.keeps
    exact ⟨hprogram, hstart, hend, hpolicy, .inl ⟨hstatus, by simp [htrace]⟩⟩
  · exact ⟨rfl, rfl, rfl, rfl, .inr ⟨c, rfl⟩⟩

/-- Settles O24, by the frame of `exec` for an instruction with destination `r` that is no store. -/
theorem loadFrame : Obligations.LoadFrame := by
  intro i c a r s t hi h
  have hdest : i.dest? = some r := by rcases hi with rfl | rfl <;> rfl
  have hstore : ∀ r a, i ≠ .storeMem r a := by rcases hi with rfl | rfl <;> nofun
  refine ⟨fun q hq => exec_readReg_of_dest_ne h ?_, fun k => ?_, exec_frame h⟩
  · simpa [hdest] using hq.symm
  · rw [exec_mem_of_not_store h hstore]

/-- Settles O25: STORE_MEM has no destination register and is no load, and it writes one cell. -/
theorem storeFrame : Obligations.StoreFrame := by
  intro r a s t h
  have hmem := exec_mem_cases h
  refine ⟨fun q => exec_readReg_of_dest_ne h nofun, exec_acc_of_not_load h rfl,
    fun k hk j hj => ?_, fun cause hcause j => ?_, exec_frame h⟩
  · rcases hmem with hm | ⟨_, _, k', v, hi, hk', hm⟩
    · rw [hm]
    · cases hi
      cases hk.symm.trans hk'
      rw [hm, Memory.read_write_other _ _ hj]
  · rcases hmem with hm | ⟨_, _, k', v, hi, hk', hm⟩
    · rw [hm]
    · cases hi
      cases hcause.symm.trans hk'

/-- Settles O26, by the frame of `exec` for an instruction with destination `r` that is neither a load
nor a store. -/
theorem aluFrame : Obligations.AluFrame := by
  intro i a b r s t hi h
  have hdest : i.dest? = some r := by rcases hi with rfl | rfl | rfl <;> rfl
  have hload : i.isLoad = false := by rcases hi with rfl | rfl | rfl <;> rfl
  have hstore : ∀ r a, i ≠ .storeMem r a := by rcases hi with rfl | rfl | rfl <;> nofun
  refine ⟨fun q hq => exec_readReg_of_dest_ne h ?_, exec_acc_of_not_load h hload, fun k => ?_,
    exec_frame h⟩
  · simpa [hdest] using hq.symm
  · rw [exec_mem_of_not_store h hstore]

/-! ### The frame of a step -/

/-- A step with a next state halts at the end of the program, retires the decoded instruction, or takes
a fault. -/
theorem step_halts_retires_or_raises {s t : State} (h : step s = .next t) :
    s.status = .running ∧
    ((s.pc = s.program.length ∧ t = s.halt) ∨
     (∃ i u, DecodesAt s i ∧ Writes i s u ∧ t = u.retire i.mnemonic) ∨
     ∃ c, t = s.raise c) := by
  obtain ⟨hs, ⟨hend, e⟩ | ⟨i, u, hd, -, hw, e⟩ | ⟨-, c, -, -, -, e⟩ | ⟨c, -, e⟩⟩ := step_cases h
  · exact ⟨hs, .inl ⟨hend, e⟩⟩
  · exact ⟨hs, .inr (.inl ⟨i, u, hd, hw, e⟩)⟩
  · exact ⟨hs, .inr (.inr ⟨c, e⟩)⟩
  · exact ⟨hs, .inr (.inr ⟨c, e⟩)⟩

/-- A step that leaves the block running retired the decoded instruction. -/
theorem step_retires_of_running {s t : State} (h : step s = .next t) (ht : t.status = .running) :
    ∃ i u, DecodesAt s i ∧ Writes i s u ∧ t = u.retire i.mnemonic := by
  obtain ⟨-, ⟨-, rfl⟩ | hretires | ⟨c, rfl⟩⟩ := step_halts_retires_or_raises h
  · cases ht
  · exact hretires
  · cases ht

/-- Settles O10: `step` looks at the status first. -/
theorem finalStatusTakesNoStep : Obligations.FinalStatusTakesNoStep :=
  ⟨fun s hs => by simp only [step, hs], fun s f hs => by simp only [step, hs]⟩

/-- Settles O11, by the three things a step can do. -/
theorem faultsArePrecise : Obligations.FaultsArePrecise := by
  intro s t h
  obtain ⟨hs, ⟨hend, rfl⟩ | ⟨i, u, -, hw, rfl⟩ | ⟨c, rfl⟩⟩ := step_halts_retires_or_raises h
  · exact ⟨hs, .inr (.inl ⟨hend, rfl⟩)⟩
  · obtain ⟨-, -, -, -, -, -, hstatus, -⟩ := hw.keeps
    exact ⟨hs, .inl (hstatus.trans hs)⟩
  · exact ⟨hs, .inr (.inr ⟨c, rfl⟩)⟩

/-- A register that a step changes is the destination of the decoded instruction (R22). -/
theorem step_dest_of_readReg_ne {s t : State} {q : Fin numReg} (h : step s = .next t)
    (hq : t.readReg q ≠ s.readReg q) : ∃ i, DecodesAt s i ∧ i.dest? = some q.val := by
  obtain ⟨-, ⟨-, rfl⟩ | ⟨i, u, hd, hw, rfl⟩ | ⟨c, rfl⟩⟩ := step_halts_retires_or_raises h
  · exact absurd rfl hq
  · exact ⟨i, hd, by_contra fun hne => hq (hw.readReg_of_dest_ne hne)⟩
  · exact absurd rfl hq

/-- A step that changes the accumulator runs a load (R32). -/
theorem step_load_of_acc_ne {s t : State} (h : step s = .next t) (ha : t.acc ≠ s.acc) :
    ∃ i, DecodesAt s i ∧ i.isLoad = true := by
  obtain ⟨-, ⟨-, rfl⟩ | ⟨i, u, hd, hw, rfl⟩ | ⟨c, rfl⟩⟩ := step_halts_retires_or_raises h
  · exact absurd rfl ha
  · exact ⟨i, hd, by_contra fun hi => ha (hw.acc_of_not_load (Bool.eq_false_of_not_eq_true hi))⟩
  · exact absurd rfl ha

/-- A load that retires leaves the accumulator equal to its destination register (R130, R134). -/
theorem step_acc_eq_dest_of_load {s t : State} {i : Instr} {q : Fin numReg} (h : step s = .next t)
    (ht : t.status = .running) (hd : DecodesAt s i) (hi : i.isLoad = true)
    (hq : i.dest? = some q.val) : t.acc = t.readReg q := by
  obtain ⟨j, u, hj, hw, rfl⟩ := step_retires_of_running h ht
  obtain rfl := hd.unique hj
  exact hw.acc_eq_dest_of_load hi hq

/-- Settles O32, by the destination of each instruction. -/
theorem onlyDestinationRegisterChanges : Obligations.OnlyDestinationRegisterChanges := by
  intro s t q h hq
  obtain ⟨i, hd, hdest⟩ := step_dest_of_readReg_ne h hq
  cases i with
  | storeMem r a => cases hdest
  | loadConst c r => cases hdest; exact .inl ⟨c, hd⟩
  | loadMem a r => cases hdest; exact .inr (.inl ⟨a, hd⟩)
  | geOp a b r => cases hdest; exact .inr (.inr ⟨a, b, .inl hd⟩)
  | addOp a b r => cases hdest; exact .inr (.inr ⟨a, b, .inr (.inl hd)⟩)
  | subOp a b r => cases hdest; exact .inr (.inr ⟨a, b, .inr (.inr hd)⟩)

/-- Settles O33: a changed accumulator means a load, and a retired load writes it with its register. -/
theorem onlyLoadsWriteAccumulator : Obligations.OnlyLoadsWriteAccumulator := by
  intro s t h
  refine ⟨fun ha => ?_, fun r hr hload ht => ?_⟩
  · obtain ⟨i, hd, hi⟩ := step_load_of_acc_ne h ha
    cases i with
    | loadConst c r => exact ⟨r, .inl ⟨c, hd⟩⟩
    | loadMem a r => exact ⟨r, .inr ⟨a, hd⟩⟩
    | storeMem | geOp | addOp | subOp => cases hi
  · rcases hload with ⟨c, hd⟩ | ⟨a, hd⟩ <;>
      exact step_acc_eq_dest_of_load (q := ⟨r, hr⟩) h ht hd rfl rfl

/-- Settles O36, by the length of the instruction that retires. -/
theorem pcAdvancesByLength : Obligations.PcAdvancesByLength := by
  intro s t h
  rcases step_ends_or_retires h with ⟨hover, hpc, -⟩ | ⟨hrun, -, -, i, hd, hpc⟩
  · exact .inr ⟨hover, hpc⟩
  · refine .inl ⟨hrun, ?_⟩
    cases i with
    | loadConst c r => exact .inl ⟨.inl ⟨c, r, hd⟩, hpc⟩
    | loadMem a r => exact .inl ⟨.inr (.inl ⟨a, r, hd⟩), hpc⟩
    | storeMem r a => exact .inl ⟨.inr (.inr ⟨r, a, hd⟩), hpc⟩
    | geOp a b r => exact .inr ⟨⟨a, b, r, .inl hd⟩, hpc⟩
    | addOp a b r => exact .inr ⟨⟨a, b, r, .inr (.inl hd)⟩, hpc⟩
    | subOp a b r => exact .inr ⟨⟨a, b, r, .inr (.inr hd)⟩, hpc⟩

end Sys2Proof.Machine

/-! PROOF. The invariant holds at the start of a run and every step keeps it (R28, R41, R92, R98, R102,
R171, R174, R179, R187, R189). -/

namespace Sys2Proof.Machine

open Sys2Proof.Config

/-! ### The invariant under each kind of step -/

/-- The writes of an instruction keep the memory canonical (log 6). -/
theorem Writes.mem_wf {i : Instr} {s u : State} (h : Writes i s u) (hs : s.mem.wf) : u.mem.wf := by
  rcases h.mem_cases with hm | ⟨_, _, k, v, -, -, hm⟩
  · rwa [hm]
  · rw [hm]
    exact Memory.write_wf hs k.isLt v

theorem State.Inv.halt {s : State} (h : s.Inv) (hend : s.pc = s.program.length) : s.halt.Inv :=
  { h with
    rangeChecked := nofun
    haltedAtEnd := fun _ => hend
    faultHere := nofun }

theorem State.Inv.raise {s : State} (h : s.Inv) (c : FaultCause) : (s.raise c).Inv :=
  { h with
    rangeChecked := nofun
    haltedAtEnd := nofun
    faultHere := fun f hf => by cases hf; exact ⟨rfl, rfl⟩ }

/-- Retirement pays for one more instruction of at least four bytes and appends one whole record. -/
theorem State.Inv.retire {s u : State} {i : Instr} (h : s.Inv) (hs : s.status = .running)
    (hd : DecodesAt s i) (hw : Writes i s u) : (u.retire i.mnemonic).Inv := by
  obtain ⟨hprogram, hstart, hend, -, hpc, hicount, hstatus, htrace⟩ := hw.keeps
  have hrun : u.status = .running := hstatus.trans hs
  have hinside : s.pc + i.mnemonic.length ≤ s.program.length := hd.inProgram
  have hfour : 4 ≤ i.mnemonic.length := i.four_le_length
  have hpays := h.pcPaysForInstructions
  constructor
  case memoryCanonical => exact hw.mem_wf h.memoryCanonical
  case pcInProgram => simpa [hpc, hprogram] using hinside
  case pcPaysForInstructions => simp only [State.retire_icount, State.retire_pc, hpc, hicount]; omega
  case recordPerInstruction => simp [htrace, hicount, h.recordPerInstruction]
  case recordsWholeRange =>
    intro r hr
    rw [State.retire_trace, htrace, List.mem_append, List.mem_singleton] at hr
    rcases hr with hr | rfl
    · simpa [hstart, hend] using h.recordsWholeRange r hr
    · exact u.observedCells_indices
  case rangeChecked => simpa [hstart, hend] using fun _ => h.rangeChecked hs
  case haltedAtEnd => simp [hrun]
  case faultHere => simp [hrun]

/-- Settles O44, by the three things a step can do. -/
theorem stepKeepsInvariant : Obligations.StepKeepsInvariant := by
  intro s t h hstep
  obtain ⟨hs, ⟨hend, rfl⟩ | ⟨i, u, hd, hw, rfl⟩ | ⟨c, rfl⟩⟩ := step_halts_retires_or_raises hstep
  · exact h.halt hend
  · exact h.retire hs hd hw
  · exact h.raise c

/-! ### The start of a run -/

theorem rangeLegal_iff (a b : Nat) : rangeLegal a b ↔ a ≤ b ∧ b ≤ 1023 :=
  and_congr_right fun _ => Nat.lt_succ_iff

theorem State.start_of_legal {h : HostInput} (hr : rangeLegal h.obsStart h.obsEnd) :
    State.start h = State.resetWith h := if_pos hr

theorem State.start_of_illegal {h : HostInput} (hr : ¬ rangeLegal h.obsStart h.obsEnd) :
    State.start h = (State.resetWith h).raise (.invalidObservationRange h.obsStart h.obsEnd) :=
  if_neg hr

/-- The check of the observation range decides the status and nothing else (R174). -/
theorem State.start_eq (h : HostInput) :
    State.start h = { State.resetWith h with status := (State.start h).status } := by
  by_cases hr : rangeLegal h.obsStart h.obsEnd
  · rw [State.start_of_legal hr]
  · rw [State.start_of_illegal hr]; rfl

@[simp] theorem State.start_program (h : HostInput) : (State.start h).program = h.program := by
  rw [State.start_eq]; rfl
@[simp] theorem State.start_obsStart (h : HostInput) : (State.start h).obsStart = h.obsStart := by
  rw [State.start_eq]; rfl
@[simp] theorem State.start_obsEnd (h : HostInput) : (State.start h).obsEnd = h.obsEnd := by
  rw [State.start_eq]; rfl
@[simp] theorem State.start_addrPolicy (h : HostInput) :
    (State.start h).addrPolicy = h.addrPolicy.getD .reject := by
  rw [State.start_eq]; rfl
@[simp] theorem State.start_regs (h : HostInput) :
    (State.start h).regs = Vector.replicate numReg 0 := by
  rw [State.start_eq]; rfl
@[simp] theorem State.start_mem (h : HostInput) : (State.start h).mem = [] := by
  rw [State.start_eq]; rfl
@[simp] theorem State.start_acc (h : HostInput) : (State.start h).acc = 0 := by
  rw [State.start_eq]; rfl
@[simp] theorem State.start_pc (h : HostInput) : (State.start h).pc = 0 := by
  rw [State.start_eq]; rfl
@[simp] theorem State.start_icount (h : HostInput) : (State.start h).icount = 0 := by
  rw [State.start_eq]; rfl
@[simp] theorem State.start_trace (h : HostInput) : (State.start h).trace = [] := by
  rw [State.start_eq]; rfl

@[simp] theorem State.readReg_start (h : HostInput) (q : Fin numReg) :
    (State.start h).readReg q = 0 := by
  simp [State.readReg]

/-- Running under a legal range, and else faulted before the first instruction (R102, R174). -/
theorem State.start_status_cases (h : HostInput) :
    (rangeLegal h.obsStart h.obsEnd ∧ (State.start h).status = .running) ∨
    (¬ rangeLegal h.obsStart h.obsEnd ∧ (State.start h).status =
      .faulted ⟨.invalidObservationRange h.obsStart h.obsEnd, 0, 0⟩) := by
  by_cases hr : rangeLegal h.obsStart h.obsEnd
  · exact .inl ⟨hr, by rw [State.start_of_legal hr]; rfl⟩
  · exact .inr ⟨hr, by rw [State.start_of_illegal hr]; rfl⟩

/-- Settles O41, field by field; the status by the check of the observation range. -/
theorem startOfRun : Obligations.StartOfRun := by
  refine ⟨fun h => ⟨State.readReg_start h, fun k => by simp [unlistedCell], State.start_acc h,
    State.start_pc h, State.start_icount h, State.start_trace h, State.start_program h,
    State.start_obsStart h, State.start_obsEnd h, fun hp => by simp [hp], fun p hp => by simp [hp],
    ?_⟩, fun a b => rfl⟩
  rw [← rangeLegal_iff]
  rcases State.start_status_cases h with ⟨hr, hs⟩ | ⟨hr, hs⟩
  · exact ⟨fun _ => hs, fun hn => absurd hr hn⟩
  · exact ⟨fun hl => absurd hl hr, fun _ => hs⟩

/-- The invariant holds where a run starts: nothing has retired, and an illegal range has faulted. -/
theorem State.start_inv (h : HostInput) : (State.start h).Inv := by
  constructor
  case memoryCanonical => rw [State.start_mem]; exact Memory.wf_nil
  case pcInProgram => simp
  case pcPaysForInstructions => simp
  case recordPerInstruction => simp
  case recordsWholeRange => simp
  case rangeChecked =>
    rcases State.start_status_cases h with ⟨hr, -⟩ | ⟨-, hs⟩
    · simpa using fun _ => hr
    · simp [hs]
  case haltedAtEnd => rcases State.start_status_cases h with ⟨-, hs⟩ | ⟨-, hs⟩ <;> simp [hs]
  case faultHere => rcases State.start_status_cases h with ⟨-, hs⟩ | ⟨-, hs⟩ <;> simp [hs]

/-- Settles O43: reset is the start of the empty program under the range 0:0. -/
theorem invariantAtStart : Obligations.InvariantAtStart :=
  ⟨State.start_inv, State.start_inv ⟨[], 0, 0, none⟩⟩

end Sys2Proof.Machine

/-! PROOF. Runs: what any number of steps keeps, and what no run depends on (R32, R35, R37, R39, R40,
R43, R57, R66, R186, R194). -/

namespace Sys2Proof.Machine

open Sys2Proof.Config

/-! ### A relation between the ends of a run -/

/-- A reflexive and transitive relation that holds across every step holds across every run. -/
theorem run_related {R : State → State → Prop} (hrefl : ∀ {s}, R s s)
    (htrans : ∀ {s u t}, R s u → R u t → R s t) (hstep : ∀ {s t}, step s = .next t → R s t)
    {k : Nat} {s t : State} (h : Sys2Proof.core.run k s = .next t) : R s t := by
  induction k generalizing s with
  | zero => cases h; exact hrefl
  | succ k ih =>
    obtain ⟨u, hu, hrest⟩ := run_succ_cases h
    exact htrans (hstep hu) (ih hrest)

/-- The same program, observation range and address policy. -/
def SameConfiguration (s t : State) : Prop :=
  t.program = s.program ∧ t.obsStart = s.obsStart ∧ t.obsEnd = s.obsEnd ∧
    t.addrPolicy = s.addrPolicy

theorem SameConfiguration.refl (s : State) : SameConfiguration s s := ⟨rfl, rfl, rfl, rfl⟩

theorem SameConfiguration.trans {s u t : State} (h : SameConfiguration s u)
    (h' : SameConfiguration u t) : SameConfiguration s t := by
  obtain ⟨hprogram, hstart, hend, hpolicy⟩ := h
  obtain ⟨hprogram', hstart', hend', hpolicy'⟩ := h'
  exact ⟨hprogram'.trans hprogram, hstart'.trans hstart, hend'.trans hend, hpolicy'.trans hpolicy⟩

theorem step_sameConfiguration {s t : State} (h : step s = .next t) : SameConfiguration s t := by
  obtain ⟨-, ⟨-, rfl⟩ | ⟨i, u, -, hw, rfl⟩ | ⟨c, rfl⟩⟩ := step_halts_retires_or_raises h
  · exact .refl s
  · obtain ⟨hprogram, hstart, hend, hpolicy, -⟩ := hw.keeps
    exact ⟨hprogram, hstart, hend, hpolicy⟩
  · exact .refl s

/-- Settles O37: each step keeps the configuration. -/
theorem programAndConfigurationConstant : Obligations.ProgramAndConfigurationConstant :=
  fun _ _ _ h => run_related (R := SameConfiguration) (.refl _) .trans step_sameConfiguration h

/-- The trace of `t` is that of `s` and one more record per instruction retired since. -/
def TraceExtends (s t : State) : Prop :=
  s.icount ≤ t.icount ∧ ∃ new, t.trace = s.trace ++ new ∧ new.length = t.icount - s.icount

theorem TraceExtends.trans {s u t : State} (h : TraceExtends s u) (h' : TraceExtends u t) :
    TraceExtends s t := by
  obtain ⟨hle, new, htrace, hlen⟩ := h
  obtain ⟨hle', new', htrace', hlen'⟩ := h'
  refine ⟨hle.trans hle', new ++ new', by rw [htrace', htrace, List.append_assoc], ?_⟩
  rw [List.length_append]
  omega

theorem TraceExtends.of_same {s t : State} (htrace : t.trace = s.trace)
    (hicount : t.icount = s.icount) : TraceExtends s t :=
  ⟨hicount.ge, [], by simp [htrace], by simp [hicount]⟩

theorem step_traceExtends {s t : State} (h : step s = .next t) : TraceExtends s t := by
  obtain ⟨-, ⟨-, rfl⟩ | ⟨i, u, -, hw, rfl⟩ | ⟨c, rfl⟩⟩ := step_halts_retires_or_raises h
  · exact .of_same rfl rfl
  · obtain ⟨-, -, -, -, -, hicount, -, htrace⟩ := hw.keeps
    exact ⟨by simp [hicount], [u.traceRecord], by simp [htrace], by simp [hicount]⟩
  · exact .of_same rfl rfl

/-- Settles O40: each step extends the trace by what it retires, and extensions compose. -/
theorem traceOnlyGrows : Obligations.TraceOnlyGrows :=
  fun _ _ _ h => run_related (R := TraceExtends) (.of_same rfl rfl) .trans step_traceExtends h

/-! ### Two runs side by side -/

/-- Where the first answer has a next state, the second has one that `R` relates to it. -/
def Follows (R : State → State → Prop) (x y : Result) : Prop :=
  ∀ t, x = .next t → ∃ t', y = .next t' ∧ R t t'

theorem Follows.next {R : State → State → Prop} {t t' : State} (h : R t t') :
    Follows R (.next t) (.next t') := fun _ e => by cases e; exact ⟨t', rfl, h⟩

/-- A relation that every step keeps is kept by runs of the same number of steps. -/
theorem run_follows {R : State → State → Prop}
    (hstep : ∀ {s s'}, R s s' → Follows R (step s) (step s')) (k : Nat) {s s' : State}
    (h : R s s') : Follows R (Sys2Proof.core.run k s) (Sys2Proof.core.run k s') := by
  induction k generalizing s s' with
  | zero => exact .next h
  | succ k ih =>
    intro t ht
    obtain ⟨u, hu, hrest⟩ := run_succ_cases ht
    obtain ⟨u', hu', hR⟩ := hstep h u hu
    rw [run_succ_of_step hu']
    exact ih hR t hrest

/-- Two states that agree on all that an instruction reads or decides by: the program, the policy, the
registers, the memory, `pc`, and whether the run is over. Under `onAcc` they agree on the accumulator
too, under `onCount` on `icount` and on the whole status. They need not agree on the observation range
and the trace. -/
structure Agree (onAcc onCount : Prop) (s s' : State) : Prop where
  program : s'.program = s.program
  addrPolicy : s'.addrPolicy = s.addrPolicy
  regs : s'.regs = s.regs
  mem : s'.mem = s.mem
  pc : s'.pc = s.pc
  running : s'.status = .running ↔ s.status = .running
  halted : s'.status = .halted ↔ s.status = .halted
  acc : onAcc → s'.acc = s.acc
  icount : onCount → s'.icount = s.icount
  status : onCount → s'.status = s.status

namespace Agree

variable {onAcc onCount : Prop} {s s' : State}

theorem readReg (h : Agree onAcc onCount s s') (r : Fin numReg) : s'.readReg r = s.readReg r := by
  simp only [State.readReg, h.regs]

theorem memRead (h : Agree onAcc onCount s s') (k : Fin numMem) : s'.memRead k = s.memRead k := by
  simp only [State.memRead, h.mem]

theorem fetch (h : Agree onAcc onCount s s') : s'.fetch = s.fetch := by
  simp only [State.fetch, h.pc, h.program]

/-! The operations keep the agreement. -/

theorem writeReg (h : Agree onAcc onCount s s') (r : Fin numReg) {v v' : Word} (hv : v' = v) :
    Agree onAcc onCount (s.writeReg r v) (s'.writeReg r v') :=
  { h with regs := by simp [h.regs, hv] }

theorem load (h : Agree onAcc onCount s s') (r : Fin numReg) {v v' : Word} (hv : v' = v) :
    Agree onAcc onCount (s.load r v) (s'.load r v') :=
  { h with regs := by simp [h.regs, hv], acc := fun _ => hv }

theorem memWrite (h : Agree onAcc onCount s s') (k : Fin numMem) {v v' : Word} (hv : v' = v) :
    Agree onAcc onCount (s.memWrite k v) (s'.memWrite k v') :=
  { h with mem := by simp [h.mem, hv] }

theorem retire (h : Agree onAcc onCount s s') (m : Mnemonic) :
    Agree onAcc onCount (s.retire m) (s'.retire m) :=
  { h with pc := by simp [h.pc], icount := fun hc => by simp [h.icount hc] }

theorem halt (h : Agree onAcc onCount s s') : Agree onAcc onCount s.halt s'.halt :=
  { h with running := by simp, halted := by simp, status := fun _ => rfl }

theorem raise (h : Agree onAcc onCount s s') (c : FaultCause) :
    Agree onAcc onCount (s.raise c) (s'.raise c) :=
  { h with
    running := by simp
    halted := by simp
    status := fun hc => by simp [h.pc, h.icount hc] }

/-! Validation keeps it, the instructions keep it, and so does a step. -/

theorem withReg (h : Agree onAcc onCount s s') (field : Operand) (v : Nat)
    {go go' : Fin numReg → Result} (hgo : ∀ r, Follows (Agree onAcc onCount) (go r) (go' r)) :
    Follows (Agree onAcc onCount) (s.withReg field v go) (s'.withReg field v go') := by
  unfold State.withReg
  cases checkReg field v with
  | ok r => exact hgo r
  | error c => exact .next (h.raise c)

theorem withCell (h : Agree onAcc onCount s s') (a : Nat)
    {go go' : Fin numMem → Result} (hgo : ∀ k, Follows (Agree onAcc onCount) (go k) (go' k)) :
    Follows (Agree onAcc onCount) (s.withCell a go) (s'.withCell a go') := by
  unfold State.withCell
  rw [h.addrPolicy]
  cases translate s.addrPolicy a with
  | ok k => exact hgo k
  | error c => exact .next (h.raise c)

theorem aluOp (h : Agree onAcc onCount s s') (m : Mnemonic) (f : Word → Word → Word)
    (a b r : Nat) : Follows (Agree onAcc onCount) (s.aluOp m f a b r) (s'.aluOp m f a b r) :=
  h.withReg .regA a fun a => h.withReg .regB b fun b => h.withReg .regResult r fun r =>
    .next ((h.writeReg r (by rw [h.readReg, h.readReg])).retire m)

theorem exec (h : Agree onAcc onCount s s') (i : Instr) :
    Follows (Agree onAcc onCount) (exec i s) (exec i s') := by
  cases i with
  | loadConst c r =>
    exact h.withReg .destRegister r fun r => .next ((h.load r rfl).retire .loadConst)
  | loadMem a r =>
    exact h.withCell a fun k => h.withReg .destRegister r fun r =>
      .next ((h.load r (h.memRead k)).retire .loadMem)
  | storeMem r a =>
    exact h.withReg .srcRegister r fun r => h.withCell a fun k =>
      .next ((h.memWrite k (h.readReg r)).retire .storeMem)
  | geOp a b r => exact h.aluOp .geOp aluGe a b r
  | addOp a b r => exact h.aluOp .addOp aluAdd a b r
  | subOp a b r => exact h.aluOp .subOp aluSub a b r

theorem step (h : Agree onAcc onCount s s') :
    Follows (Agree onAcc onCount) (step s) (step s') := by
  by_cases hs : s.status = .running
  · simp only [Machine.step, hs, h.running.2 hs, h.fetch]
    cases s.fetch with
    | endOfStream => exact .next h.halt
    | instr i => exact h.exec i
    | raises c => exact .next (h.raise c)
    | outside => exact nofun
  · exact fun t ht => absurd (step_cases ht).1 hs

end Agree

/-- Settles O34: states that agree on all but the accumulator and the trace step to such states. -/
theorem accumulatorInfluencesNothing : Obligations.AccumulatorInfluencesNothing := by
  intro k s t v h
  have hstart : Agree False True s { s with acc := v } :=
    ⟨rfl, rfl, rfl, rfl, rfl, .rfl, .rfl, nofun, fun _ => rfl, fun _ => rfl⟩
  obtain ⟨t', ht', ha⟩ := run_follows Agree.step k hstart t h
  exact ⟨t', ht', ha.regs, ha.mem, ha.pc, ha.icount trivial, ha.status trivial⟩

/-- Settles O35: states that agree on all but the observation range, `icount`, the trace and the fault
record step to such states. -/
theorem observationInfluencesNothing : Obligations.ObservationInfluencesNothing := by
  intro k s t a b n tr h
  have hstart : Agree True False s { s with obsStart := a, obsEnd := b, icount := n, trace := tr } :=
    ⟨rfl, rfl, rfl, rfl, rfl, .rfl, .rfl, fun _ => rfl, nofun, nofun⟩
  obtain ⟨t', ht', ha⟩ := run_follows Agree.step k hstart t h
  exact ⟨t', ht', ha.regs, ha.mem, ha.acc trivial, ha.pc, ha.running, ha.halted⟩

end Sys2Proof.Machine

/-! PROOF. Every operand of a decoded instruction lies in the range of its field (R87, R88, R89, R108). -/

namespace Sys2Proof

/-- The integers a field of this name can carry (R87 to R89). -/
def Operand.Admits (f : Operand) (n : Int) : Prop :=
  match f with
  | .constant => -2147483648 ≤ n ∧ n ≤ 2147483647
  | .address => 0 ≤ n ∧ n < 4294967296
  | .destRegister | .srcRegister | .regA | .regB | .regResult => 0 ≤ n ∧ n < 256

/-- The bytes of a field read as a value the field can carry. -/
theorem Operand.admits_ofBytes {f : Operand} {bytes : List Byte} (h : bytes.length = f.width) :
    f.Admits (f.ofBytes bytes) := by
  have hlt := leValue_lt bytes
  rw [h] at hlt
  cases f
  case constant =>
    simp only [Operand.width] at hlt
    simp only [Operand.Admits, Operand.ofBytes, signed32]
    split <;> omega
  all_goals
    simp only [Operand.width] at hlt
    simp only [Operand.Admits, Operand.ofBytes]
    omega

/-- The split into fields gives each field a value it can carry. -/
theorem decodeFields_admits {fs : List Operand} {bytes rest : List Byte} {values : List Int}
    (h : decodeFields fs bytes = some (values, rest)) : ∀ p ∈ fs.zip values, p.1.Admits p.2 := by
  induction fs generalizing bytes values with
  | nil => nofun
  | cons f fs ih =>
    rw [decodeFields] at h
    split at h
    · cases h
    · split at h
      · cases h
      · rename_i hlen _ _ _ htail
        cases h
        intro p hp
        rcases List.mem_cons.1 hp with rfl | hp
        · exact Operand.admits_ofBytes (List.length_take_of_le (Nat.not_lt.1 hlen))
        · exact ih htail p hp

/-- Values that the row's fields can carry make a well-formed instruction (R108). -/
theorem Instr.wellFormed_of_ofValues {m : Mnemonic} {values : List Int} {i : Instr}
    (h : Instr.ofValues m values = some i) (hv : ∀ p ∈ m.operands.zip values, p.1.Admits p.2) :
    i.wellFormed = true := by
  unfold Instr.ofValues at h
  split at h <;> cases h
  all_goals
    simp only [Mnemonic.operands, List.zip_cons_cons, List.forall_mem_cons, Operand.Admits] at hv
    simp only [Instr.wellFormed, constantInRange, addressInRange, registerFieldInRange,
      Bool.and_eq_true, decide_eq_true_eq]
    omega

/-- What decodes is well formed (R108). -/
theorem decode_wellFormed {bytes rest : List Byte} {i : Instr} (h : decode bytes = .ok (i, rest)) :
    i.wellFormed = true := by
  obtain ⟨tail, -, hops, -, -⟩ := decode_eq_ok h
  rw [decodeOperands] at hops
  split at hops
  · cases hops
  · rename_i values _ hfields
    obtain ⟨j, hj, e⟩ := Option.map_eq_some_iff.1 hops
    cases e
    exact Instr.wellFormed_of_ofValues hj (decodeFields_admits hfields)

end Sys2Proof

namespace Sys2Proof.Machine

/-- The instruction at the program counter is well formed (R108). -/
theorem DecodesAt.wellFormed {s : State} {i : Instr} (h : DecodesAt s i) : i.wellFormed = true :=
  let ⟨_, hd⟩ := h
  decode_wellFormed hd

end Sys2Proof.Machine

/-! PROOF. The data memory: the address translator, what a write and a step do to the cells, equality of
canonical memories, and when an address faults (R50, R51, R53, R54, R56, R63, R177). -/

namespace Sys2Proof.Machine

open Sys2Proof.Config

/-! ### The address translator -/

/-- Settles O23, by the translator's value in each range of addresses: the low ten bits of an address are
its value modulo `2 ^ 10`. -/
theorem translateByPolicy : Obligations.TranslateByPolicy := fun a =>
  ⟨fun h => translate_reject_lt h, fun h => translate_reject_ge h,
    _, translate_mask a, rfl, (Nat.and_two_pow_sub_one_eq_mod a 10).symm⟩

/-! ### Memory as data -/

/-- Settles O27, by the three laws of a write. -/
theorem memoryWriteSetsOneCell : Obligations.MemoryWriteSetsOneCell := fun m k v hm hk =>
  ⟨Memory.read_write_same hm k v, fun _ hj => Memory.read_write_other m v hj,
    Memory.write_wf hm hk v⟩

theorem Memory.read_head (p : Nat × Word) (m : Memory) : Memory.read (p :: m) p.1 = p.2 := if_pos rfl

theorem Memory.read_tail {p : Nat × Word} {a : Nat} (m : Memory) (h : p.1 ≠ a) :
    Memory.read (p :: m) a = m.read a := if_neg h

/-- What lies below the first index of a canonical memory lies below all of them. -/
theorem Memory.all_gt_of_lt_head {q : Nat × Word} {m : Memory} (hm : Memory.wf (q :: m)) {a : Nat}
    (h : a < q.1) : ∀ x ∈ q :: m, a < x.1 := by
  intro x hx
  rcases List.mem_cons.1 hx with rfl | hx
  · exact h
  · exact Nat.lt_trans h (Memory.wf_head_lt hm x hx)

/-- A memory whose indices all lie above the first index of a canonical one reads differently there: it
reads the reset value, which a canonical memory never lists. -/
theorem Memory.read_ne_of_all_gt {p : Nat × Word} {m n : Memory} (hm : Memory.wf (p :: m))
    (hn : ∀ q ∈ n, p.1 < q.1) : Memory.read (p :: m) p.1 ≠ n.read p.1 := by
  rw [Memory.read_of_all_gt hn, Memory.read_head]
  exact (hm.2 p (List.mem_cons_self ..)).2

/-- Canonical memories that read alike at every cell are equal (R50, log 6): their first entries are the
same, and so are the rests, which read the reset value at the first index. -/
theorem Memory.eq_of_read_eq {m n : Memory} (hm : m.wf) (hn : n.wf)
    (h : ∀ k, k < 1024 → m.read k = n.read k) : m = n := by
  induction m generalizing n with
  | nil =>
    cases n with
    | nil => rfl
    | cons q n =>
      exact absurd (h q.1 (hn.2 q (List.mem_cons_self ..)).1).symm (Memory.read_ne_of_all_gt hn nofun)
  | cons p m ih =>
    have hp : p.1 < 1024 := (hm.2 p (List.mem_cons_self ..)).1
    cases n with
    | nil => exact absurd (h p.1 hp) (Memory.read_ne_of_all_gt hm nofun)
    | cons q n =>
      have hq : q.1 < 1024 := (hn.2 q (List.mem_cons_self ..)).1
      have hindex : p.1 = q.1 := by
        rcases Nat.lt_trichotomy p.1 q.1 with hlt | heq | hgt
        · exact absurd (h p.1 hp) (Memory.read_ne_of_all_gt hm (Memory.all_gt_of_lt_head hn hlt))
        · exact heq
        · exact absurd (h q.1 hq).symm
            (Memory.read_ne_of_all_gt hn (Memory.all_gt_of_lt_head hm hgt))
      have hhead : p = q := by
        have hvalue := h p.1 hp
        rw [Memory.read_head, hindex, Memory.read_head] at hvalue
        exact Prod.ext hindex hvalue
      subst hhead
      have htail : m = n := by
        refine ih (Memory.wf_tail hm) (Memory.wf_tail hn) fun k hk => ?_
        by_cases hpk : p.1 = k
        · subst hpk
          rw [Memory.read_of_all_gt (Memory.wf_head_lt hm),
            Memory.read_of_all_gt (Memory.wf_head_lt hn)]
        · rw [← Memory.read_tail m hpk, ← Memory.read_tail n hpk, h k hk]
      rw [htail]

/-- Settles O28. -/
theorem canonicalMemoriesEqual : Obligations.CanonicalMemoriesEqual :=
  fun _ _ hm hn h => Memory.eq_of_read_eq hm hn h

/-! ### What a step does to the cells -/

/-- An address that names a cell passes its check. -/
theorem State.withCell_ok (s : State) {a : Nat} {k : Fin numMem} (go : Fin numMem → Result)
    (h : translate s.addrPolicy a = .ok k) : s.withCell a go = go k := by
  simp only [State.withCell, h]

/-- STORE_MEM of a register to an address that names a cell (R138). -/
theorem exec_storeMem_ok {s : State} {r a : Nat} {k : Fin numMem} (hr : r < 32)
    (hk : translate s.addrPolicy a = .ok k) :
    exec (.storeMem r a) s = .next ((s.memWrite k (s.readReg ⟨r, hr⟩)).retire .storeMem) := by
  rw [exec_storeMem, execStoreMem, s.withReg_lt _ _ hr, s.withCell_ok _ hk]

/-- A running block executes the instruction at its program counter (R101). -/
theorem step_eq_exec {s : State} {i : Instr} (hs : s.status = .running) (hd : DecodesAt s i) :
    step s = exec i s := by
  simp only [step, hs, (s.fetch_eq_instr_iff i).2 hd]

/-- A step changes memory only by a decoded store, in the cell its address translates to (R51, R54). -/
theorem step_mem_cases {s t : State} (h : step s = .next t) :
    t.mem = s.mem ∨
      ∃ r a k v, DecodesAt s (.storeMem r a) ∧ translate s.addrPolicy a = .ok k ∧
        t.mem = s.mem.write k v := by
  obtain ⟨-, ⟨-, rfl⟩ | ⟨i, u, hd, hw, rfl⟩ | ⟨c, rfl⟩⟩ := step_halts_retires_or_raises h
  · exact .inl rfl
  · rcases hw.mem_cases with hm | ⟨r, a, k, v, rfl, hk, hm⟩
    · exact .inl hm
    · exact .inr ⟨r, a, k, v, hd, hk, hm⟩
  · exact .inl rfl

/-- Settles O29: the decoded store writes its cell, and memory changes by nothing else. -/
theorem cellHoldsLastStore : Obligations.CellHoldsLastStore := by
  intro s t hinv h k
  refine ⟨fun r a hr hd hk => ?_, fun hno => ?_⟩
  · have hexec := (step_eq_exec (step_cases h).1 hd).trans (exec_storeMem_ok hr hk)
    cases h.symm.trans hexec
    exact Memory.read_write_same hinv.memoryCanonical k _
  · rcases step_mem_cases h with hm | ⟨r, a, j, v, hd, hj, hm⟩
    · rw [hm]
    · have hne : k.val ≠ j.val := fun e => hno ⟨r, a, hd, by rw [hj, Fin.ext e]⟩
      rw [hm, Memory.read_write_other _ v hne]

/-! ### When an address faults -/

/-- A step that faults failed the validation of the decoded instruction, or found none. -/
theorem step_fault_cases {s t : State} {f : FaultRecord} (h : step s = .next t)
    (ht : t.status = .faulted f) :
    (∃ i, DecodesAt s i ∧ ValidationFault i s f.cause) ∨ s.fetch = .raises f.cause := by
  obtain ⟨hs, ⟨-, rfl⟩ | ⟨i, u, -, -, hw, rfl⟩ | ⟨i, c, hd, -, hv, rfl⟩ | ⟨c, hf, rfl⟩⟩ := step_cases h
  · cases ht
  · obtain ⟨-, -, -, -, -, -, hstatus, -⟩ := hw.keeps
    cases (hstatus.trans hs).symm.trans ht
  · cases ht
    exact .inl ⟨i, hd, hv⟩
  · cases ht
    exact .inr hf

/-- The address of a decoded LOAD_MEM or STORE_MEM is an unsigned 32-bit number (R87). -/
theorem DecodesAt.address_lt {s : State} {i : Instr} {a r : Nat} (h : DecodesAt s i)
    (hi : i = .loadMem a r ∨ i = .storeMem r a) : a < 4294967296 := by
  have hwf := h.wellFormed
  rcases hi with rfl | rfl <;>
    simp only [Instr.wellFormed, addressInRange, Bool.and_eq_true, decide_eq_true_eq] at hwf
  · exact hwf.1
  · exact hwf.2

/-- Settles O22: only validation raises this cause, and only for an address of the decoded load or
store. -/
theorem memoryFaultCause : Obligations.MemoryFaultCause := by
  refine ⟨fun s t field value pc n h ht => ?_, fun s a hp ha => ⟨?_, ?_⟩, fun _ _ => rfl⟩
  · rcases step_fault_cases h ht with ⟨i, hd, ⟨_, _, hc, -⟩ | ⟨v, hc, hp, hv, r, hi⟩⟩ | hf
    · cases hc
    · cases hc
      refine ⟨hp, rfl, hv, hd.address_lt hi, r, ?_⟩
      rcases hi with rfl | rfl
      · exact .inl hd
      · exact .inr hd
    · rcases State.fetch_eq_raises hf with ⟨_, hc⟩ | ⟨_, _, _, hc⟩ <;> cases hc
  · exact s.withCell_reject_ge _ hp ha
  · rw [exec_storeMem, execStoreMem, s.withReg_lt _ _ (by decide), s.withCell_reject_ge _ hp ha]
    rfl

end Sys2Proof.Machine

/-! PROOF. The encoder and the decoder are inverse to each other (R81, R86 to R90, R105, R107, R108). -/

namespace Sys2Proof

/-! ### The bytes of one field -/

/-- A natural number and an integer with the same low byte. -/
theorem ofNat_eq_ofInt {x : Nat} {n : Int} (h : (x : Int) % 256 = n % 256) :
    BitVec.ofNat 8 x = BitVec.ofInt 8 n := by
  apply BitVec.eq_of_toNat_eq
  simp only [BitVec.toNat_ofNat, BitVec.toNat_ofInt]
  omega

/-- A constant is four bytes, the least significant first (R86, R108). -/
theorem encodeField_constant (c : Int) :
    encodeField .constant c = [BitVec.ofInt 8 c, BitVec.ofInt 8 (c / 256),
      BitVec.ofInt 8 (c / 65536), BitVec.ofInt 8 (c / 16777216)] := by
  simp only [encodeField, Operand.width, leBytes, List.cons.injEq, and_true]
  refine ⟨?_, ?_, ?_, ?_⟩ <;> exact ofNat_eq_ofInt (by omega)

/-- An address is four bytes, the least significant first (R86, R108). -/
theorem encodeField_address (a : Nat) :
    encodeField .address a = [BitVec.ofNat 8 a, BitVec.ofNat 8 (a / 256),
      BitVec.ofNat 8 (a / 65536), BitVec.ofNat 8 (a / 16777216)] := by
  have h := encodeField_constant a
  simp only [← BitVec.ofInt_natCast]
  exact h

/-- A register index is one byte (R108). -/
theorem encodeField_register {f : Operand} (hf : f.width = 1) (r : Nat) :
    encodeField f r = [BitVec.ofNat 8 r] := by
  simp only [encodeField, hf, leBytes, List.cons.injEq, and_true, ← BitVec.ofInt_natCast]
  exact ofNat_eq_ofInt (by omega)

/-! ### Reading back one field -/

/-- The value a field of this name reads as, once written. -/
def Operand.wrap (f : Operand) (n : Int) : Int := f.ofBytes (encodeField f n)

theorem leValue_encodeField (f : Operand) (n : Int) :
    (leValue (encodeField f n) : Int) = n % ((256 ^ f.width : Nat) : Int) := by
  have hpos : (0 : Int) < ((256 ^ f.width : Nat) : Int) := mod_cast Nat.pow_pos (by decide)
  have h0 := Int.emod_nonneg n hpos.ne'
  rw [encodeField, leValue_leBytes, Int.natCast_emod, Int.toNat_of_nonneg h0, Int.emod_emod]

/-- However a field is read, signed or unsigned, its value is that of its bytes modulo its width. -/
theorem Operand.ofBytes_emod (f : Operand) (bytes : List Byte) :
    f.ofBytes bytes % ((256 ^ f.width : Nat) : Int) =
      leValue bytes % ((256 ^ f.width : Nat) : Int) := by
  cases f
  case constant =>
    simp only [Operand.ofBytes, Operand.width, signed32]
    split <;> omega
  all_goals rfl

/-- Writing a value and reading it back keeps it modulo the width of its field (R122). -/
theorem Operand.wrap_emod (f : Operand) (n : Int) :
    f.wrap n % ((256 ^ f.width : Nat) : Int) = n % ((256 ^ f.width : Nat) : Int) := by
  rw [Operand.wrap, Operand.ofBytes_emod, leValue_encodeField, Int.emod_emod]

theorem Operand.admits_wrap (f : Operand) (n : Int) : f.Admits (f.wrap n) :=
  Operand.admits_ofBytes (encodeField_length f n)

/-- A field carries one value of each residue modulo its width (R87 to R89). -/
theorem Operand.Admits.eq_of_emod_eq {f : Operand} {n k : Int} (hn : f.Admits n) (hk : f.Admits k)
    (h : n % ((256 ^ f.width : Nat) : Int) = k % ((256 ^ f.width : Nat) : Int)) : n = k := by
  cases f
  all_goals
    simp only [Operand.Admits, Operand.width] at hn hk h
    omega

/-- A value the field can carry is read back unchanged (R108). -/
theorem Operand.wrap_eq_self {f : Operand} {n : Int} (h : f.Admits n) : f.wrap n = n :=
  (f.admits_wrap n).eq_of_emod_eq h (f.wrap_emod n)

/-- Writing what was read gives the bytes of the field back (R107). -/
theorem encodeField_ofBytes {f : Operand} {bytes : List Byte} (h : bytes.length = f.width) :
    encodeField f (f.ofBytes bytes) = bytes := by
  have hlt := leValue_lt bytes
  rw [encodeField, Operand.ofBytes_emod, ← h, ← Int.natCast_emod, Int.toNat_natCast,
    Nat.mod_eq_of_lt hlt, leBytes_leValue]

/-! ### All fields of a row -/

/-- The bytes of operand values, each in its field (R108). -/
def encodeFields (fs : List Operand) (values : List Int) : List Byte :=
  (fs.zip values).flatMap fun field => encodeField field.1 field.2

theorem encodeFields_cons (f : Operand) (fs : List Operand) (n : Int) (values : List Int) :
    encodeFields (f :: fs) (n :: values) = encodeField f n ++ encodeFields fs values := rfl

theorem encodeRow_eq (m : Mnemonic) (values : List Int) :
    encodeRow m values = m.opcode :: encodeFields m.operands values := rfl

/-- Splitting written fields reads each value back, wrapped to its field. -/
theorem decodeFields_encodeFields {fs : List Operand} {values : List Int}
    (h : values.length = fs.length) (rest : List Byte) :
    decodeFields fs (encodeFields fs values ++ rest) =
      some (List.zipWith Operand.wrap fs values, rest) := by
  induction fs generalizing values with
  | nil => simp [encodeFields, decodeFields]
  | cons f fs ih =>
    obtain _ | ⟨n, values⟩ := values
    · cases h
    · rw [encodeFields_cons, List.append_assoc, decodeFields_cons _ _ _ (encodeField_length f n),
        ih (Nat.succ.inj h)]
      rfl

/-- Writing the values that were split off gives their bytes back. -/
theorem encodeFields_of_decodeFields {fs : List Operand} {bytes rest : List Byte} {values : List Int}
    (h : decodeFields fs bytes = some (values, rest)) : bytes = encodeFields fs values ++ rest := by
  induction fs generalizing bytes values with
  | nil => cases h; rfl
  | cons f fs ih =>
    have hlen : f.width ≤ bytes.length := by
      by_contra hlt
      simp [decodeFields, Nat.not_le.1 hlt] at h
    have hfield : (bytes.take f.width).length = f.width := List.length_take_of_le hlen
    rw [← List.take_append_drop f.width bytes, decodeFields_cons _ _ _ hfield] at h
    obtain ⟨⟨values', rest'⟩, htail, e⟩ := Option.map_eq_some_iff.1 h
    cases e
    rw [encodeFields_cons, encodeField_ofBytes hfield, List.append_assoc, ← ih htail,
      List.take_append_drop]

/-! ### Rows and instructions -/

theorem Instr.length_values (i : Instr) : i.values.length = i.mnemonic.operands.length := by
  cases i <;> rfl

/-- The operands of a well-formed instruction are values that their fields can carry (R108). -/
theorem Instr.admits_of_wellFormed {i : Instr} (h : i.wellFormed = true) :
    ∀ p ∈ i.mnemonic.operands.zip i.values, p.1.Admits p.2 := by
  cases i
  all_goals
    simp only [Instr.wellFormed, constantInRange, addressInRange, registerFieldInRange,
      Bool.and_eq_true, decide_eq_true_eq] at h
    simp only [Instr.mnemonic, Mnemonic.operands, Instr.values, Operand.Admits, List.zip_cons_cons,
      List.zip_nil_left, List.forall_mem_cons, List.not_mem_nil, false_imp_iff, implies_true, and_true]
    omega

/-- The values an instruction was made of, where its fields can carry them. -/
theorem Instr.values_of_ofValues {m : Mnemonic} {values : List Int} {i : Instr}
    (h : Instr.ofValues m values = some i) (hv : ∀ p ∈ m.operands.zip values, p.1.Admits p.2) :
    i.values = values := by
  unfold Instr.ofValues at h
  split at h <;> cases h
  all_goals
    simp [Mnemonic.operands, Operand.Admits] at hv
    simp [Instr.values, hv]

/-- Wrapping to the fields of a row changes nothing that they can carry. -/
theorem zipWith_wrap_of_admits {fs : List Operand} {values : List Int}
    (hlen : values.length = fs.length) (h : ∀ p ∈ fs.zip values, p.1.Admits p.2) :
    List.zipWith Operand.wrap fs values = values := by
  induction fs generalizing values with
  | nil => simp_all
  | cons f fs ih =>
    obtain _ | ⟨n, values⟩ := values
    · cases hlen
    · rw [List.zip_cons_cons, List.forall_mem_cons] at h
      rw [List.zipWith_cons_cons, Operand.wrap_eq_self h.1, ih (Nat.succ.inj hlen) h.2]

/-- A successful split of a row's operands is a split into its fields. -/
theorem decodeFields_of_decodeOperands {m : Mnemonic} {bytes rest : List Byte} {i : Instr}
    (h : decodeOperands m bytes = some (i, rest)) :
    ∃ values, decodeFields m.operands bytes = some (values, rest) ∧
      Instr.ofValues m values = some i := by
  rw [decodeOperands] at h
  split at h
  · cases h
  · rename_i values _ hfields
    obtain ⟨j, hj, e⟩ := Option.map_eq_some_iff.1 h
    cases e
    exact ⟨values, hfields, hj⟩

/-- The bytes of a row decode to the instruction of its operand values, wrapped to their fields. -/
theorem decode_encodeRow {m : Mnemonic} {values : List Int} {i : Instr}
    (hlen : values.length = m.operands.length)
    (hi : Instr.ofValues m (List.zipWith Operand.wrap m.operands values) = some i)
    (rest : List Byte) : decode (encodeRow m values ++ rest) = .ok (i, rest) := by
  have hops : decodeOperands m (encodeFields m.operands values ++ rest) = some (i, rest) := by
    simp only [decodeOperands, decodeFields_encodeFields hlen, hi, Option.map_some]
  simp only [encodeRow_eq, List.cons_append, decode, Mnemonic.ofOpcode_opcode, hops]

/-- Decoding an encoded instruction gives it back and leaves the bytes after it (R108). -/
theorem decode_encode {i : Instr} (h : i.wellFormed = true) (rest : List Byte) :
    decode (encode i ++ rest) = .ok (i, rest) := by
  have hwrap := zipWith_wrap_of_admits i.length_values (Instr.admits_of_wellFormed h)
  exact decode_encodeRow i.length_values (by rw [hwrap, Instr.ofValues_values]) rest

/-- The decoder accepts only the encoding of what it answers (R107). -/
theorem eq_encode_of_decode {bytes rest : List Byte} {i : Instr}
    (h : decode bytes = .ok (i, rest)) : bytes = encode i ++ rest := by
  obtain ⟨tail, rfl, hops, -, -⟩ := decode_eq_ok h
  obtain ⟨values, hfields, hi⟩ := decodeFields_of_decodeOperands hops
  rw [encode, Instr.values_of_ofValues hi (decodeFields_admits hfields), encodeRow_eq,
    List.cons_append, ← encodeFields_of_decodeFields hfields]

/-- What decodes decodes to the same instruction when more bytes follow. -/
theorem decode_append {bytes rest : List Byte} {i : Instr} (h : decode bytes = .ok (i, rest))
    (more : List Byte) : decode (bytes ++ more) = .ok (i, rest ++ more) := by
  rw [eq_encode_of_decode h, List.append_assoc, decode_encode (decode_wellFormed h)]

/-- Settles O2: the layouts field by field, the round trip by the wrapping of each field. -/
theorem encodingRoundTrip : Obligations.EncodingRoundTrip := by
  refine ⟨fun c r => ?_, fun a r => ?_, fun r a => ?_, fun a b r => ?_, fun a b r => ?_,
    fun a b r => ?_, fun i rest h => decode_encode h rest⟩
  all_goals
    simp only [encode, encodeRow_eq, encodeFields, Instr.mnemonic, Instr.values,
      Mnemonic.operands, List.zip_cons_cons, List.zip_nil_left, List.flatMap_cons, List.flatMap_nil,
      encodeField_constant, encodeField_address,
      encodeField_register (f := .destRegister) rfl, encodeField_register (f := .srcRegister) rfl,
      encodeField_register (f := .regA) rfl, encodeField_register (f := .regB) rfl,
      encodeField_register (f := .regResult) rfl]
    rfl

/-- Settles O3. -/
theorem decodedBytesAreTheEncoding : Obligations.DecodedBytesAreTheEncoding :=
  fun _ _ _ h => ⟨decode_wellFormed h, eq_encode_of_decode h⟩

end Sys2Proof

/-! PROOF. The length an opcode byte decides, and the constant field (R82 to R86, R88, R90, R91). -/

namespace Sys2Proof

/-- Settles O1, by evaluating the decoder on the twelve byte sequences. -/
theorem specWordsDecode : Obligations.SpecWordsDecode :=
  ⟨rfl, rfl, rfl, rfl, rfl, rfl, rfl, rfl, rfl, rfl, rfl, rfl⟩

/-- The row of an opcode byte that the rules list with its length (R90). -/
theorem Mnemonic.ofOpcode_of_length {op : Byte} {len : Nat}
    (h : ((1 ≤ op.toNat ∧ op.toNat ≤ 3) ∧ len = 6) ∨ ((4 ≤ op.toNat ∧ op.toNat ≤ 6) ∧ len = 4)) :
    ∃ m, Mnemonic.ofOpcode op = some m ∧ m.length = len := by
  cases hm : Mnemonic.ofOpcode op with
  | none =>
    have := (Mnemonic.ofOpcode_eq_none_iff op).1 hm
    omega
  | some m =>
    obtain rfl := Mnemonic.ofOpcode_eq_some hm
    have := m.opcode_length
    exact ⟨m, rfl, by omega⟩

/-- The decoder takes as many bytes as the row of the opcode is long (R90). -/
theorem length_of_decode {op : Byte} {bytes rest : List Byte} {m : Mnemonic} {i : Instr}
    (hm : Mnemonic.ofOpcode op = some m) (hd : decode (op :: bytes) = .ok (i, rest)) :
    (op :: bytes).length = m.length + rest.length := by
  obtain ⟨tail, hb, -, hlen, rfl⟩ := decode_eq_ok hd
  cases hb
  cases (Mnemonic.ofOpcode_opcode _).symm.trans hm
  rw [List.length_drop]
  exact (Nat.add_sub_cancel' hlen).symm

/-- Settles O4: opcode lookup finds the row, whose operand bytes are there or not. -/
theorem opcodeDecidesLength : Obligations.OpcodeDecidesLength := by
  refine fun op bytes len => ⟨fun h => ?_, fun h i rest hd => ?_⟩
  · obtain ⟨m, hm, rfl⟩ := Mnemonic.ofOpcode_of_length h
    refine ⟨⟨fun hlen => ?_, fun ⟨i, hd⟩ => ?_⟩, fun i rest => length_of_decode hm⟩
    · rw [m.length_eq_succ, List.length_cons] at hlen
      obtain ⟨i, -, hd⟩ := decode_complete hm (Nat.le_of_succ_le_succ hlen)
      exact ⟨i, by rw [hd, m.length_eq_succ, List.drop_succ_cons]⟩
    · rw [length_of_decode hm hd]
      exact Nat.le_add_right ..
  · rw [decode_unknown ((Mnemonic.ofOpcode_eq_none_iff op).2 h)] at hd
    cases hd

end Sys2Proof

namespace Sys2Proof.Machine

/-- Truncation to a word forgets the sign that was read into a constant (R88, R130). -/
theorem truncW_signed32 (u : Nat) : truncW (signed32 u) = BitVec.ofNat 32 u := by
  apply BitVec.eq_of_toNat_eq
  simp only [truncW, signed32, BitVec.toNat_ofInt, BitVec.toNat_ofNat]
  split <;> omega

/-- LOAD_CONST to a register that exists (R130). -/
theorem exec_loadConst_lt (c : Int) {r : Nat} (h : r < 32) (s : State) :
    exec (.loadConst c r) s =
      .next ((s.load ⟨r, h⟩ (truncW c)).retire .loadConst) :=
  s.withReg_lt _ _ h

/-- Settles O5: the split of LOAD_CONST reads the constant as `signed32` of its bytes. -/
theorem constantIsTwosComplement : Obligations.ConstantIsTwosComplement := by
  intro b0 b1 b2 b3 r rest u
  have hu : leValue [b0, b1, b2, b3] = u := leValue_four b0 b1 b2 b3
  have hd : decode (0x01 :: b0 :: b1 :: b2 :: b3 :: r :: rest) =
      .ok (.loadConst (signed32 u) r.toNat, rest) := by
    rw [← hu, ← leValue_one r]
    rfl
  have hrange : Operand.constant.Admits (signed32 u) :=
    hu ▸ Operand.admits_ofBytes (f := .constant) (bytes := [b0, b1, b2, b3]) rfl
  refine ⟨signed32 u, hd, rfl, hrange.1, hrange.2, fun h s => ?_⟩
  rw [Retires, exec_loadConst_lt _ h, truncW_signed32]
  rfl

end Sys2Proof.Machine

/-! PROOF. Operand validation: which field faults first, and the register fields as a cause (R99, R173;
D7). -/

namespace Sys2Proof.Machine

/-- Under `Mask`, and for an address below 1024, there is a cell (R56). -/
theorem exists_translate {policy : Config.AddrPolicy} {a : Nat} (h : policy = .mask ∨ a < 1024) :
    ∃ k, translate policy a = .ok k := by
  cases policy with
  | mask => exact ⟨_, translate_mask a⟩
  | reject => exact ⟨_, translate_reject_lt (h.resolve_left nofun)⟩

/-- The first register field of an ALU instruction that names no register decides its fault (D7). -/
theorem State.aluOp_faults (s : State) (m : Mnemonic) (f : Word → Word → Word) (a b r : Nat) :
    (32 ≤ a → s.aluOp m f a b r = .next (faultedAt s (.registerIndexOutOfRange .regA a))) ∧
    (a < 32 → 32 ≤ b → s.aluOp m f a b r = .next (faultedAt s (.registerIndexOutOfRange .regB b))) ∧
    (a < 32 → b < 32 → 32 ≤ r →
      s.aluOp m f a b r = .next (faultedAt s (.registerIndexOutOfRange .regResult r))) := by
  refine ⟨fun ha => s.withReg_ge _ _ ha, fun ha hb => ?_, fun ha hb hr => ?_⟩
  · exact (s.withReg_lt _ _ ha).trans (s.withReg_ge _ _ hb)
  · exact ((s.withReg_lt _ _ ha).trans (s.withReg_lt _ _ hb)).trans (s.withReg_ge _ _ hr)

/-- Settles O20: each check before the one that fails goes on. -/
theorem operandsCheckedInOrder : Obligations.OperandsCheckedInOrder := by
  intro s a b r c
  refine ⟨fun hr => s.withReg_ge _ _ hr, fun hp ha => s.withCell_reject_ge _ hp ha, fun ha hr => ?_,
    fun hr => s.withReg_ge _ _ hr, fun hr hp ha => ?_, fun i hi => ?_⟩
  · obtain ⟨k, hk⟩ := exists_translate ha
    exact (s.withCell_ok _ hk).trans (s.withReg_ge _ _ hr)
  · exact (s.withReg_lt _ _ hr).trans (s.withCell_reject_ge _ hp ha)
  · rcases hi with rfl | rfl | rfl <;> exact s.aluOp_faults ..

/-- The fields that hold a register index carry values below 256 (R89). -/
theorem Operand.lt_of_admits {field : Operand} {value : Nat} (h : field.Admits value)
    (hc : field ≠ .constant) (ha : field ≠ .address) : value < 256 := by
  cases field
  case constant => exact absurd rfl hc
  case address => exact absurd rfl ha
  all_goals exact Int.ofNat_lt.1 h.2

/-- Settles O21: only validation raises this cause, for a register field of the decoded instruction. -/
theorem registerFaultCause : Obligations.RegisterFaultCause := by
  refine ⟨fun s t field value pc n h ht => ?_, fun m s => ?_, fun _ _ => rfl⟩
  · rcases step_fault_cases h ht with ⟨i, hd, ⟨f, v, hc, hv, hmem, hnc, hna⟩ | ⟨_, hc, -⟩⟩ | hf
    · cases hc
      have hlt := Operand.lt_of_admits (Instr.admits_of_wellFormed hd.wellFormed _ hmem) hnc hna
      refine ⟨hv, by omega, ?_, i, hd, hmem⟩
      cases field <;> simp at hnc hna ⊢
    · cases hc
    · rcases State.fetch_eq_raises hf with ⟨_, hc⟩ | ⟨_, _, _, hc⟩ <;> cases hc
  · obtain ⟨hconst, -, hload, hstore, -, -⟩ := operandsCheckedInOrder s 0 0 32 0
    cases m with
    | loadConst => exact ⟨.loadConst 0 32, _, by decide, rfl, hconst le_rfl⟩
    | loadMem => exact ⟨.loadMem 0 32, _, by decide, rfl, hload (.inr (by decide)) le_rfl⟩
    | storeMem => exact ⟨.storeMem 32 0, _, by decide, rfl, hstore le_rfl⟩
    | geOp => exact ⟨.geOp 32 0 0, _, by decide, rfl, (s.aluOp_faults .geOp aluGe 32 0 0).1 le_rfl⟩
    | addOp => exact ⟨.addOp 32 0 0, _, by decide, rfl, (s.aluOp_faults .addOp aluAdd 32 0 0).1 le_rfl⟩
    | subOp => exact ⟨.subOp 32 0 0, _, by decide, rfl, (s.aluOp_faults .subOp aluSub 32 0 0).1 le_rfl⟩

end Sys2Proof.Machine

/-! PROOF. What the fetch finds, and the outcomes of a step: halt, fault, retirement (R81, R93 to R101,
R106, R172, R175, R176). -/

namespace Sys2Proof.Machine

open Sys2Proof.Config

/-! ### The fetch at a byte of the program -/

theorem State.pc_lt {s : State} {op : Byte} (h : s.program[s.pc]? = some op) :
    s.pc < s.program.length := (List.getElem?_eq_some_iff.1 h).1

/-- The byte at the program counter and the bytes after it. -/
theorem State.drop_pc {s : State} {op : Byte} (h : s.program[s.pc]? = some op) :
    s.program.drop s.pc = op :: s.program.drop (s.pc + 1) := by
  obtain ⟨hlt, rfl⟩ := List.getElem?_eq_some_iff.1 h
  exact List.drop_eq_getElem_cons hlt

/-- A byte that is no opcode (R95). -/
theorem State.fetch_unknown {s : State} {op : Byte} (h : s.program[s.pc]? = some op)
    (hop : Mnemonic.ofOpcode op = none) : s.fetch = .raises (.unknownOpcode op) := by
  simp only [State.fetch, (s.pc_lt h).ne, if_false, s.drop_pc h, decode_unknown hop]

/-- An opcode whose operand bytes run past the end of the program (R96). -/
theorem State.fetch_truncated {s : State} {op : Byte} {m : Mnemonic}
    (h : s.program[s.pc]? = some op) (hop : Mnemonic.ofOpcode op = some m)
    (hlen : s.program.length < s.pc + m.length) :
    s.fetch = .raises (.truncatedInstruction op (m.length - 1) (s.program.length - s.pc - 1)) := by
  have htail : (s.program.drop (s.pc + 1)).length < m.operandBytes := by
    have hlt := s.pc_lt h
    rw [m.length_eq_succ] at hlen
    rw [List.length_drop]
    omega
  simp only [State.fetch, (s.pc_lt h).ne, if_false, s.drop_pc h, decode_truncated hop htail,
    m.length_eq_succ, List.length_drop, Nat.add_sub_cancel, Nat.sub_sub]

/-- An opcode with its operand bytes (R97). -/
theorem State.fetch_complete {s : State} {op : Byte} {m : Mnemonic}
    (h : s.program[s.pc]? = some op) (hop : Mnemonic.ofOpcode op = some m)
    (hlen : s.pc + m.length ≤ s.program.length) : ∃ i, s.fetch = .instr i := by
  have htail : m.operandBytes ≤ (s.program.drop (s.pc + 1)).length := by
    rw [m.length_eq_succ] at hlen
    rw [List.length_drop]
    omega
  obtain ⟨i, -, hd⟩ := decode_complete hop htail
  exact ⟨i, (s.fetch_eq_instr_iff i).2 ⟨_, (s.drop_pc h).symm ▸ hd⟩⟩

/-- Only a byte that is no opcode raises `UnknownOpcode` (R93, R95). -/
theorem State.fetch_unknown_iff {s : State} {op : Byte} (h : s.program[s.pc]? = some op) :
    s.fetch = .raises (.unknownOpcode op) ↔ Mnemonic.ofOpcode op = none := by
  refine ⟨fun hf => ?_, s.fetch_unknown h⟩
  cases hop : Mnemonic.ofOpcode op with
  | none => rfl
  | some m =>
    rcases Nat.lt_or_ge s.program.length (s.pc + m.length) with hlen | hlen
    · cases hf.symm.trans (s.fetch_truncated h hop hlen)
    · obtain ⟨i, hi⟩ := s.fetch_complete h hop hlen
      cases hf.symm.trans hi

/-- An opcode raises `TruncatedInstruction` exactly when its operand bytes are not all there (R96). -/
theorem State.fetch_truncated_iff {s : State} {op : Byte} {m : Mnemonic}
    (h : s.program[s.pc]? = some op) (hop : Mnemonic.ofOpcode op = some m) :
    s.fetch = .raises (.truncatedInstruction op (m.length - 1) (s.program.length - s.pc - 1)) ↔
      s.program.length < s.pc + m.length := by
  refine ⟨fun hf => Nat.lt_of_not_le fun hlen => ?_, s.fetch_truncated h hop⟩
  obtain ⟨i, hi⟩ := s.fetch_complete h hop hlen
  cases hf.symm.trans hi

/-! ### The step at each fetch -/

/-- Settles O6. -/
theorem stepExecutesDecoded : Obligations.StepExecutesDecoded := fun _ _ hs hd => step_eq_exec hs hd

/-- A step takes the fault of the fetch, and an unknown opcode or a truncation comes from nowhere else. -/
theorem step_eq_raise_iff {s : State} {c : FaultCause} (hs : s.status = .running)
    (hc : (∃ op, c = .unknownOpcode op) ∨ ∃ op n k, c = .truncatedInstruction op n k) :
    step s = .next (faultedAt s c) ↔ s.fetch = .raises c := by
  refine ⟨fun h => ?_, fun hf => by simp only [step, hs, hf]; rfl⟩
  rcases step_fault_cases h rfl with ⟨i, -, ⟨_, _, rfl, -⟩ | ⟨_, rfl, -⟩⟩ | hf
  · rcases hc with ⟨_, hc⟩ | ⟨_, _, _, hc⟩ <;> cases hc
  · rcases hc with ⟨_, hc⟩ | ⟨_, _, _, hc⟩ <;> cases hc
  · exact hf

/-- Settles O7, by opcode lookup at the fetch. -/
theorem unknownOpcodeFaults : Obligations.UnknownOpcodeFaults := by
  refine ⟨fun s op hs h => ?_, fun _ => rfl⟩
  rw [step_eq_raise_iff hs (.inl ⟨op, rfl⟩), State.fetch_unknown_iff h, Mnemonic.ofOpcode_eq_none_iff]

/-- Settles O8, by the length check at the fetch. -/
theorem truncationFaults : Obligations.TruncationFaults := by
  refine ⟨fun s op len hs h hlen => ?_, fun _ _ _ => rfl⟩
  obtain ⟨m, hop, rfl⟩ := Mnemonic.ofOpcode_of_length hlen
  rw [step_eq_raise_iff hs (.inr ⟨_, _, _, rfl⟩), State.fetch_truncated_iff h hop]

/-- A running block at the end of its program halts (R98). -/
theorem step_halts {s : State} (hs : s.status = .running) (hend : s.pc = s.program.length) :
    step s = .next s.halt := by
  simp only [step, hs, s.fetch_eq_endOfStream_iff.2 hend]

/-- A run under a legal range starts running (R174). -/
theorem State.start_running {h : HostInput} (hle : h.obsStart ≤ h.obsEnd) (hend : h.obsEnd ≤ 1023) :
    (State.start h).status = .running := by
  rcases State.start_status_cases h with ⟨-, hs⟩ | ⟨hr, -⟩
  · exact hs
  · exact absurd ((rangeLegal_iff ..).2 ⟨hle, hend⟩) hr

/-- Settles O9. -/
theorem haltAtEndOfProgram : Obligations.HaltAtEndOfProgram := by
  refine ⟨fun s hs hend => step_halts hs hend, fun s t h ht => ?_, fun a b policy hab hb => ?_⟩
  · obtain ⟨-, hrun | ⟨hend, -⟩ | ⟨c, rfl⟩⟩ := faultsArePrecise s t h
    · cases hrun.symm.trans ht
    · exact hend
    · cases ht
  · have hrun := State.start_running (h := ⟨[], a, b, policy⟩) hab hb
    exact ⟨step_halts hrun (by simp), State.start_trace _⟩

/-- Settles O12: a step that faults raises, which changes the status alone. -/
theorem faultKeepsState : Obligations.FaultKeepsState := by
  intro s t f h ht
  obtain ⟨hs, hrun | ⟨-, rfl⟩ | ⟨c, rfl⟩⟩ := faultsArePrecise s t h
  · cases hrun.symm.trans ht
  · cases ht
  · cases ht
    exact ⟨by simp only [State.diagnostic, hs], rfl, rfl, rfl, rfl, fun u hu => nomatch (step_cases hu).1⟩

/-- No step raises the fault of the check before the run (R102, R174). -/
theorem step_cause_ne_invalidRange {s t : State} {f : FaultRecord} (h : step s = .next t)
    (ht : t.status = .faulted f) (a b : Nat) : f.cause ≠ .invalidObservationRange a b := by
  intro hcause
  rcases step_fault_cases h ht with ⟨i, -, ⟨_, _, hc, -⟩ | ⟨_, hc, -⟩⟩ | hf
  · cases hcause.symm.trans hc
  · cases hcause.symm.trans hc
  · rcases State.fetch_eq_raises hf with ⟨_, hc⟩ | ⟨_, _, _, hc⟩ <;> cases hcause.symm.trans hc

/-- Settles O13: a running block steps, and the status it steps to says which outcome it is. -/
theorem stepIsTotal : Obligations.StepIsTotal := by
  intro s hs hpc
  obtain ⟨t, h⟩ := exists_step_of_running hs hpc
  refine ⟨t, h, ?_⟩
  cases ht : t.status with
  | halted => exact .inl rfl
  | faulted f => exact .inr (.inl ⟨f, rfl, step_cause_ne_invalidRange h ht⟩)
  | running =>
    rcases step_ends_or_retires h with ⟨hover, -⟩ | ⟨-, hicount, -⟩
    · exact absurd ht hover
    · exact .inr (.inr ⟨rfl, hicount⟩)

/-! ### A table word placed for the next fetch -/

/-- The bytes placed stand at the program counter (log 9). -/
theorem State.drop_placeAtPc (s : State) (bytes : List Byte) :
    (s.placeAtPc bytes).program.drop (s.placeAtPc bytes).pc =
      bytes ++ s.program.drop (s.pc + bytes.length) := by
  have hlen : (s.program.take s.pc ++ List.replicate (s.pc - s.program.length) 0).length = s.pc := by
    simp only [List.length_append, List.length_take, List.length_replicate]
    omega
  simp only [State.placeAtPc, List.append_assoc] at hlen ⊢
  rw [← List.append_assoc, List.drop_left' hlen]

/-- A table word that the decoder reads is its bytes decoded (R81). -/
theorem decode_of_decodeTableWord {nbits w : Nat} {i : Instr} (h : decodeTableWord nbits w = some i) :
    ∃ rest, decode (tableWordBytes nbits w) = .ok (i, rest) := by
  unfold decodeTableWord at h
  split at h
  · cases h
    exact ⟨_, by assumption⟩
  · cases h

/-- Settles O48: the placed bytes decode as the word alone does, whatever bytes follow. -/
theorem placedWordRuns : Obligations.PlacedWordRuns := by
  intro s nbits w i h
  obtain ⟨rest, hd⟩ := decode_of_decodeTableWord h
  have hplaced : DecodesAt (s.withFetchWord nbits w) i :=
    ⟨_, by rw [State.withFetchWord, State.drop_placeAtPc, decode_append hd]⟩
  exact step_eq_exec rfl hplaced

end Sys2Proof.Machine

/-! PROOF. Runs over a sequence of instructions, and when a run halts normally (R94, R98, R99, R205;
D3, D20). -/

namespace Sys2Proof

theorem encode_length (i : Instr) : (encode i).length = i.length := by
  cases i <;> rfl

end Sys2Proof

namespace Sys2Proof.Machine

/-! ### Instructions that stand one after another -/

/-- The program from `pc` on begins with the encodings of these instructions, which all pass validation,
and the block is running. -/
structure State.RunsInto (s : State) (is : List Instr) (tail : List Byte) : Prop where
  running : s.status = .running
  bytes : s.program.drop s.pc = is.flatMap encode ++ tail
  valid : ∀ i ∈ is, i.wellFormed = true ∧ PassesValidation s.addrPolicy i

/-- The bytes after an instruction that retires are those after its encoding (R29). -/
theorem drop_retire {i : Instr} {s u : State} {rest : List Byte} (hw : Writes i s u)
    (h : s.program.drop s.pc = encode i ++ rest) :
    (u.retire i.mnemonic).program.drop (u.retire i.mnemonic).pc = rest := by
  obtain ⟨hprogram, -, -, -, hpc, -⟩ := hw.keeps
  have hlen : i.mnemonic.length = (encode i).length := (encode_length i).symm
  rw [State.retire_program, State.retire_pc, hprogram, hpc, hlen, ← List.drop_drop, h,
    List.drop_left]

/-- An instruction that passes validation retires (R100). -/
theorem exec_retires {i : Instr} {s : State} (h : PassesValidation s.addrPolicy i) :
    ∃ u, Writes i s u ∧ exec i s = .next (u.retire i.mnemonic) := by
  rcases exec_cases i s with ⟨-, hu⟩ | ⟨hn, -⟩
  · exact hu
  · exact absurd h hn

/-- The first of the instructions retires, and the others stand at the new `pc`. -/
theorem State.RunsInto.step {s : State} {i : Instr} {is : List Instr} {tail : List Byte}
    (h : s.RunsInto (i :: is) tail) :
    ∃ u, Writes i s u ∧ step s = .next (u.retire i.mnemonic) ∧
      (u.retire i.mnemonic).RunsInto is tail := by
  obtain ⟨hwf, hpass⟩ := h.valid i (List.mem_cons_self ..)
  have hbytes : s.program.drop s.pc = encode i ++ (is.flatMap encode ++ tail) := by
    rw [h.bytes, List.flatMap_cons, List.append_assoc]
  have hd : DecodesAt s i := ⟨_, by rw [hbytes, decode_encode hwf]⟩
  obtain ⟨u, hw, he⟩ := exec_retires hpass
  obtain ⟨-, -, -, hpolicy, -, -, hstatus, -⟩ := hw.keeps
  exact ⟨u, hw, (step_eq_exec h.running hd).trans he, hstatus.trans h.running, drop_retire hw hbytes,
    fun j hj => hpolicy.symm ▸ h.valid j (List.mem_cons_of_mem _ hj)⟩

/-- The instructions retire one by one: the run goes on where they end, with as many more instructions
and records. -/
theorem State.RunsInto.run {s : State} {is : List Instr} {tail : List Byte}
    (h : s.RunsInto is tail) :
    ∃ u, u.RunsInto [] tail ∧ u.program = s.program ∧ u.addrPolicy = s.addrPolicy ∧
      u.pc = s.pc + (is.flatMap encode).length ∧ u.icount = s.icount + is.length ∧
      u.trace.length = s.trace.length + is.length ∧
      ∀ k t, EndsAfter u k t → EndsAfter s (is.length + k) t := by
  induction is generalizing s with
  | nil => exact ⟨s, h, rfl, rfl, rfl, rfl, rfl, fun k t ht => by simpa using ht⟩
  | cons i is ih =>
    obtain ⟨v, hw, hstep, hrest⟩ := h.step
    obtain ⟨hprogram, -, -, hpolicy, hpc, hicount, -, htrace⟩ := hw.keeps
    obtain ⟨u, hu, huprogram, hupolicy, hupc, huicount, hutrace, hends⟩ := ih hrest
    have hlen : i.mnemonic.length = (encode i).length := (encode_length i).symm
    refine ⟨u, hu, huprogram.trans hprogram, hupolicy.trans hpolicy, ?_, ?_, ?_, fun k t ht => ?_⟩
    · simp only [hupc, State.retire_pc, hpc, hlen, List.flatMap_cons, List.length_append]; omega
    · simp only [huicount, State.retire_icount, hicount, List.length_cons]; omega
    · simp only [hutrace, State.retire_trace, htrace, List.length_append, List.length_cons,
        List.length_nil]; omega
    · rw [List.length_cons, Nat.add_right_comm]
      exact (hends k t ht).of_step hstep

/-! ### Normal halts -/

/-- A run that is over takes no further step. -/
theorem run_eq_of_over {k : Nat} {s t : State} (hs : s.status ≠ .running)
    (h : Sys2Proof.core.run k s = .next t) : t = s := by
  cases k with
  | zero => cases h; rfl
  | succ k =>
    obtain ⟨u, hu, -⟩ := run_succ_cases h
    exact absurd (step_cases hu).1 hs

/-- A running block that comes to halt had only valid instructions left (R98, R99). -/
theorem exists_runsInto_of_halts {k : Nat} {s t : State} (hs : s.status = .running)
    (h : Sys2Proof.core.run k s = .next t) (ht : t.status = .halted) : ∃ is, s.RunsInto is [] := by
  induction k generalizing s with
  | zero => cases h; cases hs.symm.trans ht
  | succ k ih =>
    obtain ⟨v, hv, hrest⟩ := run_succ_cases h
    rcases (step_cases hv).2 with ⟨hend, rfl⟩ | ⟨i, u, hd, hpass, hw, rfl⟩ | ⟨-, c, -, -, -, rfl⟩ |
      ⟨c, -, rfl⟩
    · exact ⟨[], hs, by simp [hend], nofun⟩
    · obtain ⟨rest, hdecode⟩ := hd
      obtain ⟨hprogram, -, -, hpolicy, -, -, hstatus, -⟩ := hw.keeps
      obtain ⟨is, his⟩ := ih (s := u.retire i.mnemonic) (hstatus.trans hs) hrest
      have hbytes := eq_encode_of_decode hdecode
      have hafter := (drop_retire hw hbytes).symm.trans his.bytes
      refine ⟨i :: is, hs, by rw [hbytes, hafter]; simp, ?_⟩
      rw [List.forall_mem_cons]
      exact ⟨⟨decode_wellFormed hdecode, hpass⟩, fun j hj => hpolicy ▸ his.valid j hj⟩
    · cases run_eq_of_over (by simp) hrest
      cases ht
    · cases run_eq_of_over (by simp) hrest
      cases ht

/-- A run over valid instructions to the end of the program halts (R98). -/
theorem State.RunsInto.haltsNormally {s : State} {is : List Instr} (h : s.RunsInto is [])
    (hpc : s.pc + (is.flatMap encode).length = s.program.length) : HaltsNormally s := by
  obtain ⟨u, hu, hprogram, -, hupc, -, -, hends⟩ := h.run
  have hend : u.pc = u.program.length := by rw [hupc, hprogram, hpc]
  exact ⟨is.length + 1, u.halt, hends 1 _ (.of_step (step_halts hu.running hend) ⟨run_zero _, nofun⟩),
    rfl⟩

/-- Settles O46: the run from the start goes through the instructions one by one, in both directions. -/
theorem haltsExactlyWhenValid : Obligations.HaltsExactlyWhenValid := by
  intro h hle hend
  have hrun := State.start_running hle hend
  constructor
  · rintro ⟨k, t, ⟨ht, -⟩, hhalted⟩
    obtain ⟨is, his⟩ := exists_runsInto_of_halts hrun ht hhalted
    exact ⟨is, by simpa using his.bytes, by simpa using his.valid⟩
  · rintro ⟨is, hbytes, hvalid⟩
    have his : (State.start h).RunsInto is [] :=
      ⟨hrun, by simpa using hbytes, by simpa using hvalid⟩
    exact his.haltsNormally (by simp [hbytes])

end Sys2Proof.Machine

/-! PROOF. Operand literals: a sign or none, then decimal digits (R120, D15). -/

namespace Sys2Proof.Machine

/-- The character of a decimal digit. -/
def digitChar (d : Fin 10) : Char := Char.ofNat (48 + d.val)

theorem digitChar_isDigit (d : Fin 10) : (digitChar d).isDigit = true := by
  revert d; decide

/-- The value `parseDigits` gives the character of a digit. -/
theorem digitChar_value (d : Fin 10) : (digitChar d).toNat - '0'.toNat = d.val := by
  revert d; decide

theorem digitChar_ne_sign (d : Fin 10) : digitChar d ≠ '+' ∧ digitChar d ≠ '-' := by
  revert d; decide

/-- There is no other digit than the ten. -/
theorem exists_digitChar {c : Char} (h : c.isDigit = true) : ∃ d, digitChar d = c := by
  simp only [Char.isDigit, Bool.and_eq_true, decide_eq_true_eq, ge_iff_le, UInt32.le_iff_toNat_le] at h
  obtain ⟨hlow, hhigh⟩ := h
  have hlow : 48 ≤ c.toNat := hlow
  have hhigh : c.toNat ≤ 57 := hhigh
  refine ⟨⟨c.toNat - 48, by omega⟩, ?_⟩
  rw [digitChar, Nat.add_sub_cancel' hlow, Char.ofNat_toNat]

/-- One or more digits are read in base ten. -/
theorem parseDigits_digits {ds : List (Fin 10)} (h : ds ≠ []) :
    parseDigits (ds.map digitChar) = some (ds.foldl (fun n d => 10 * n + d.val) 0) := by
  have hall : (ds.map digitChar).all Char.isDigit = true := by
    simp [digitChar_isDigit]
  rw [parseDigits, if_pos ⟨by simpa using h, hall⟩, List.foldl_map]
  simp only [digitChar_value]

/-- What is read as digits is digits. -/
theorem digits_of_parseDigits {token : List Char} {n : Nat} (h : parseDigits token = some n) :
    ∃ ds, ds ≠ [] ∧ token = ds.map digitChar := by
  unfold parseDigits at h
  split at h
  · rename_i hdigits
    obtain ⟨hne, hall⟩ := hdigits
    obtain ⟨ds, rfl⟩ : token ∈ Set.range (List.map digitChar) := by
      rw [Set.range_list_map]
      exact fun c hc => exists_digitChar (List.all_eq_true.1 hall c hc)
    exact ⟨ds, by simpa using hne, rfl⟩
  · cases h

/-- Digits without a sign are a literal. -/
theorem parseLiteral_digits (ds : List (Fin 10)) :
    parseLiteral (ds.map digitChar) = (parseDigits (ds.map digitChar)).map Int.ofNat := by
  unfold parseLiteral
  split
  · rename_i hsign
    obtain ⟨d, _, -, hd, -⟩ := List.map_eq_cons_iff.1 hsign
    exact absurd hd (digitChar_ne_sign d).1
  · rename_i hsign
    obtain ⟨d, _, -, hd, -⟩ := List.map_eq_cons_iff.1 hsign
    exact absurd hd (digitChar_ne_sign d).2
  · rfl

/-- A literal has a sign before its digits, or none. -/
theorem parseLiteral_eq_some {token : List Char} {v : Int} (h : parseLiteral token = some v) :
    ∃ digits n, parseDigits digits = some n ∧
      (token = digits ∨ token = '+' :: digits ∨ token = '-' :: digits) := by
  unfold parseLiteral at h
  split at h
  all_goals obtain ⟨n, hn, -⟩ := Option.map_eq_some_iff.1 h
  · exact ⟨_, n, hn, .inr (.inl rfl)⟩
  · exact ⟨_, n, hn, .inr (.inr rfl)⟩
  · exact ⟨_, n, hn, .inl rfl⟩

/-- Settles O51: each form is read by its own case of `parseLiteral`, and there is no other. -/
theorem literalSyntax : Obligations.LiteralSyntax := by
  refine ⟨fun ds hds => ?_, fun token v h => ?_⟩
  · have hparse := parseDigits_digits hds
    refine ⟨?_, ?_, ?_⟩
    · exact (parseLiteral_digits ds).trans (by rw [hparse]; rfl)
    · exact congrArg (Option.map Int.ofNat) hparse
    · exact congrArg (Option.map fun n : Nat => -Int.ofNat n) hparse
  · obtain ⟨digits, n, hn, hform⟩ := parseLiteral_eq_some h
    obtain ⟨ds, hds, rfl⟩ := digits_of_parseDigits hn
    exact ⟨ds, hds, hform⟩

end Sys2Proof.Machine

/-! PROOF. The assembler: what each line comes to, and the binary, the log and the errors of a text
(R115 to R125; D13, D14, D21). -/

namespace Sys2Proof.Machine

/-! ### Mnemonics -/

theorem parseMnemonic_text (m : Mnemonic) : parseMnemonic (mnemonicText m).toList = some m := by
  cases m <;> decide

theorem eq_text_of_parseMnemonic {token : List Char} {m : Mnemonic}
    (h : parseMnemonic token = some m) : token = (mnemonicText m).toList := by
  have hm := List.find?_some h
  exact (eq_of_beq hm).symm

theorem parseMnemonic_of_no_text {token : List Char}
    (h : ∀ m, (mnemonicText m).toList ≠ token) : parseMnemonic token = none :=
  List.find?_eq_none.2 fun m _ hm => h m (eq_of_beq hm)

theorem mnemonicText_not_comment (m : Mnemonic) : (mnemonicText m).toList.head? ≠ some '#' := by
  cases m <;> decide

/-! ### The operands of a line -/

/-- The tokens parse as these literals exactly when each parses as its own. -/
theorem mapM_parseLiteral_eq_some {tokens : List (List Char)} {literals : List Int} :
    tokens.mapM parseLiteral = some literals ↔ tokens.map parseLiteral = literals.map some := by
  induction tokens generalizing literals with
  | nil => cases literals <;> simp
  | cons token tokens ih =>
    cases literals with
    | nil => simp [Option.bind_eq_some_iff]
    | cons n literals => simp [Option.bind_eq_some_iff, ih]

/-- A token that is no literal spoils the line. -/
theorem mapM_parseLiteral_eq_none {tokens : List (List Char)} {token : List Char}
    (hmem : token ∈ tokens) (h : parseLiteral token = none) : tokens.mapM parseLiteral = none := by
  cases hm : tokens.mapM parseLiteral with
  | none => rfl
  | some literals =>
    have hnone := List.mem_map_of_mem (f := parseLiteral) hmem
    rw [mapM_parseLiteral_eq_some.1 hm, h] at hnone
    obtain ⟨_, -, hc⟩ := List.mem_map.1 hnone
    cases hc

/-- The log entry of a row with these literals (R123, D21). -/
def logEntry (m : Mnemonic) (literals : List Int) : LogEntry :=
  ⟨m, m.opcode.toNat, (m.operands.map logKey).zip literals⟩

theorem assembleOperands_missing {m : Mnemonic} {tokens : List (List Char)}
    (h : tokens.length < m.operands.length) :
    assembleOperands m tokens = .failed .missingArguments := if_pos h

theorem assembleOperands_malformed {m : Mnemonic} {tokens : List (List Char)} {token : List Char}
    (hlen : m.operands.length ≤ tokens.length) (hmem : token ∈ tokens.take m.operands.length)
    (h : parseLiteral token = none) : assembleOperands m tokens = .failed .malformedOperand := by
  simp only [assembleOperands, Nat.not_lt.2 hlen, if_false, mapM_parseLiteral_eq_none hmem h]

theorem assembleOperands_eq_emitted_iff {m : Mnemonic} {tokens : List (List Char)}
    {bytes : List Byte} {entry : LogEntry} :
    assembleOperands m tokens = .emitted bytes entry ↔
      ∃ literals, literals.length = m.operands.length ∧
        (tokens.take m.operands.length).map parseLiteral = literals.map some ∧
        bytes = encodeRow m literals ∧ entry = logEntry m literals := by
  constructor
  · intro h
    unfold assembleOperands at h
    split at h
    · cases h
    · rename_i hlen
      split at h
      · cases h
      · rename_i literals hliterals
        cases h
        have hmap := mapM_parseLiteral_eq_some.1 hliterals
        have hlength := congrArg List.length hmap
        simp only [List.length_map, List.length_take_of_le (Nat.not_lt.1 hlen)] at hlength
        exact ⟨literals, hlength.symm, hmap, rfl, rfl⟩
  · rintro ⟨literals, hlength, hmap, rfl, rfl⟩
    have hlen : ¬ tokens.length < m.operands.length := by
      have := congrArg List.length hmap
      simp only [List.length_map, List.length_take] at this
      omega
    simp only [assembleOperands, hlen, if_false, mapM_parseLiteral_eq_some.2 hmap, logEntry]

/-! ### A line -/

theorem assembleLine_empty {line : List Char} (h : splitTokens [] line = []) :
    assembleLine line = .skipped := by
  simp only [assembleLine, h]

theorem assembleLine_comment {line token : List Char} {tokens : List (List Char)}
    (h : splitTokens [] line = token :: tokens) (hc : token.head? = some '#') :
    assembleLine line = .skipped := by
  simp only [assembleLine, h, hc, if_true]

theorem assembleLine_unknown {line token : List Char} {tokens : List (List Char)}
    (h : splitTokens [] line = token :: tokens) (hc : token.head? ≠ some '#')
    (hm : ∀ m, (mnemonicText m).toList ≠ token) :
    assembleLine line = .failed .unknownInstruction := by
  simp only [assembleLine, h, hc, if_false, parseMnemonic_of_no_text hm]

theorem assembleLine_mnemonic {line : List Char} {m : Mnemonic} {tokens : List (List Char)}
    (h : splitTokens [] line = (mnemonicText m).toList :: tokens) :
    assembleLine line = assembleOperands m tokens := by
  simp only [assembleLine, h, mnemonicText_not_comment m, if_false, parseMnemonic_text]

/-- Only a line that begins with a mnemonic is emitted. -/
theorem mnemonic_of_assembleLine_emitted {line : List Char} {bytes : List Byte} {entry : LogEntry}
    (h : assembleLine line = .emitted bytes entry) :
    ∃ m tokens, splitTokens [] line = (mnemonicText m).toList :: tokens := by
  unfold assembleLine at h
  split at h
  · cases h
  · rename_i token tokens htokens
    split at h
    · cases h
    · split at h
      · cases h
      · rename_i m hm
        exact ⟨m, tokens, eq_text_of_parseMnemonic hm ▸ htokens⟩

/-! ### The instruction of an emitted line -/

/-- The bytes of a row are the encoding of a well-formed instruction, each operand its literal wrapped to
its field (R122, D13). -/
theorem encodeRow_eq_encode {m : Mnemonic} {literals : List Int}
    (hlen : literals.length = m.operands.length) :
    ∃ i : Instr, i.wellFormed = true ∧ i.mnemonic = m ∧
      i.values = List.zipWith Operand.wrap m.operands literals ∧ encodeRow m literals = encode i := by
  have hfields := decodeFields_encodeFields hlen []
  have hwrap : (List.zipWith Operand.wrap m.operands literals).length = m.operands.length := by
    simp [hlen]
  obtain ⟨i, hi⟩ := Instr.ofValues_isSome hwrap
  have hd := decode_encodeRow hlen hi []
  have hbytes := eq_encode_of_decode hd
  simp only [List.append_nil] at hbytes
  exact ⟨i, decode_wellFormed hd, (Instr.ofValues_eq_some hi).1,
    Instr.values_of_ofValues hi (decodeFields_admits hfields), hbytes⟩

/-- The modulus of a field of `w` bytes, as the rules write it. -/
theorem modulus_of_width (f : Operand) : ((256 ^ f.width : Nat) : Int) = 2 ^ (8 * f.width) := by
  cases f <;> rfl

/-- Position by position, an operand is its literal modulo its field (R122, D13). -/
theorem operand_eq_literal_mod {m : Mnemonic} {literals : List Int}
    (hlen : literals.length = m.operands.length) {k : Nat} {f : Operand}
    (hf : m.operands[k]? = some f) :
    ∃ literal value : Int, (logEntry m literals).operands[k]? = some (logKey f, literal) ∧
      (List.zipWith Operand.wrap m.operands literals)[k]? = some value ∧
      value % 2 ^ (8 * f.width) = literal % 2 ^ (8 * f.width) := by
  have hk : k < literals.length := hlen ▸ (List.getElem?_eq_some_iff.1 hf).1
  have hliteral : literals[k]? = some literals[k] := List.getElem?_eq_getElem hk
  refine ⟨literals[k], f.wrap literals[k], ?_, ?_, ?_⟩
  · simp [logEntry, List.getElem?_zip_eq_some, hf, hliteral]
  · simp [List.getElem?_zipWith, hf, hliteral]
  · rw [← modulus_of_width]
    exact f.wrap_emod _

/-! ### A text -/

/-- The bytes and the log entry of a line that is emitted. -/
def AsmLine.output : AsmLine → Option (List Byte × LogEntry)
  | .skipped => none
  | .failed _ => none
  | .emitted bytes entry => some (bytes, entry)

theorem assembleLines_skipped {line : List Char} (h : assembleLine line = .skipped) (n : Nat)
    (lines : List (List Char)) : assembleLines n (line :: lines) = assembleLines (n + 1) lines := by
  simp only [assembleLines, h]

theorem assembleLines_failed {line : List Char} {e : AsmError} (h : assembleLine line = .failed e)
    (n : Nat) (lines : List (List Char)) :
    assembleLines n (line :: lines) = { assembleLines (n + 1) lines with
      errors := (n, e) :: (assembleLines (n + 1) lines).errors } := by
  simp only [assembleLines, h]

theorem assembleLines_emitted {line : List Char} {bytes : List Byte} {entry : LogEntry}
    (h : assembleLine line = .emitted bytes entry) (n : Nat) (lines : List (List Char)) :
    assembleLines n (line :: lines) = { assembleLines (n + 1) lines with
      binary := bytes ++ (assembleLines (n + 1) lines).binary
      log := entry :: (assembleLines (n + 1) lines).log } := by
  simp only [assembleLines, h]

/-- The binary and the log are those of the emitted lines, in order (R123, R125). -/
theorem assembleLines_output (n : Nat) (lines : List (List Char)) :
    (assembleLines n lines).binary =
      (lines.filterMap fun line => (assembleLine line).output).flatMap Prod.fst ∧
    (assembleLines n lines).log =
      (lines.filterMap fun line => (assembleLine line).output).map Prod.snd := by
  induction lines generalizing n with
  | nil => exact ⟨rfl, rfl⟩
  | cons line lines ih =>
    obtain ⟨hbinary, hlog⟩ := ih (n + 1)
    cases h : assembleLine line with
    | skipped => simp [assembleLines_skipped h, h, AsmLine.output, hbinary, hlog]
    | failed e => simp [assembleLines_failed h, h, AsmLine.output, hbinary, hlog]
    | emitted bytes entry => simp [assembleLines_emitted h, h, AsmLine.output, hbinary, hlog]

/-- The errors from line `n` on: that of the first line, if it has one, and those after it. -/
theorem mem_errors_cons {n k : Nat} {e : AsmError} {line : List Char} {lines : List (List Char)} :
    (k, e) ∈ (assembleLines n (line :: lines)).errors ↔
      (k = n ∧ assembleLine line = .failed e) ∨ (k, e) ∈ (assembleLines (n + 1) lines).errors := by
  cases h : assembleLine line with
  | skipped => simp [assembleLines_skipped h]
  | failed e' => simp [assembleLines_failed h, eq_comm (a := e)]
  | emitted bytes entry => simp [assembleLines_emitted h]

/-- The errors from line `n` on are those of the lines, under their numbers (R125; log 11). -/
theorem mem_errors_iff {n k : Nat} {e : AsmError} {lines : List (List Char)} :
    (k, e) ∈ (assembleLines n lines).errors ↔
      n ≤ k ∧ ∃ line, lines[k - n]? = some line ∧ assembleLine line = .failed e := by
  induction lines generalizing n with
  | nil => simp [assembleLines]
  | cons line lines ih =>
    rw [mem_errors_cons, ih]
    rcases Nat.lt_trichotomy k n with hlt | rfl | hgt
    · simp [hlt.ne, Nat.not_le.2 hlt, Nat.not_le.2 (Nat.lt_succ_of_lt hlt)]
    · simp
    · have hk : k - n = k - (n + 1) + 1 := by omega
      simp [hgt.ne', hgt.le, Nat.succ_le_of_lt hgt, hk]

/-- A line has at most one error, and the errors come in the order of the lines (log 11). -/
theorem errors_pairwise (n : Nat) (lines : List (List Char)) :
    (assembleLines n lines).errors.Pairwise fun a b => a.1 < b.1 := by
  induction lines generalizing n with
  | nil => exact .nil
  | cons line lines ih =>
    cases h : assembleLine line with
    | skipped => rw [assembleLines_skipped h]; exact ih (n + 1)
    | failed e =>
      rw [assembleLines_failed h]
      exact List.pairwise_cons.2 ⟨fun ⟨k, e'⟩ hk => (mem_errors_iff.1 hk).1, ih (n + 1)⟩
    | emitted bytes entry => rw [assembleLines_emitted h]; exact ih (n + 1)

/-- Settles O49: the emitted lines make up the outputs, and each is the row of its literals. -/
theorem assembledBinaryIsInstructions : Obligations.AssembledBinaryIsInstructions := by
  refine ⟨fun text => assembleLines_output 1 _, fun line bytes entry h => ?_,
    fun line m tokens literals htokens hlen hmap => ?_⟩
  · obtain ⟨m, tokens, htokens⟩ := mnemonic_of_assembleLine_emitted h
    rw [assembleLine_mnemonic htokens, assembleOperands_eq_emitted_iff] at h
    obtain ⟨literals, hlen, hmap, rfl, rfl⟩ := h
    have hkeys : (m.operands.map logKey).length = literals.length := by simp [hlen]
    obtain ⟨i, hwf, rfl, hvalues, hbytes⟩ := encodeRow_eq_encode hlen
    refine ⟨i, tokens, hwf, hbytes, htokens, ?_, rfl, rfl, List.map_fst_zip hkeys.le, fun k f hf => ?_⟩
    · calc (tokens.take i.mnemonic.operands.length).map parseLiteral
        _ = (((i.mnemonic.operands.map logKey).zip literals).map Prod.snd).map some := by
          rw [hmap, List.map_snd_zip hkeys.ge]
        _ = (logEntry i.mnemonic literals).operands.map fun operand => some operand.2 := List.map_map
    · rw [hvalues]
      exact operand_eq_literal_mod hlen hf
  · have hkeys : (m.operands.map logKey).length = literals.length := by simp [hlen]
    refine ⟨encodeRow m literals, logEntry m literals, ?_, rfl, List.map_snd_zip hkeys.ge⟩
    rw [assembleLine_mnemonic htokens, assembleOperands_eq_emitted_iff]
    exact ⟨literals, hlen, hmap, rfl, rfl⟩

/-- Settles O50, by the cases of a line and the errors of a text. -/
theorem assemblerLineErrors : Obligations.AssemblerLineErrors := by
  refine ⟨fun line => assembleLine_empty, fun line token tokens h =>
    ⟨assembleLine_comment h, assembleLine_unknown h, ?_⟩, fun text =>
    ⟨List.pairwise_map.2 (errors_pairwise 1 _), fun n e => mem_errors_iff⟩⟩
  rintro m rfl
  rw [assembleLine_mnemonic h]
  exact ⟨assembleOperands_missing, fun hlen ⟨_, hmem, hnone⟩ =>
    assembleOperands_malformed hlen hmem hnone⟩

end Sys2Proof.Machine

/-! PROOF. LOAD_CONST, LOAD_MEM and STORE_MEM: the state each retires with, and the round trip of a
constant through a cell (R56, R130, R134, R138, R142; D3). -/

namespace Sys2Proof.Machine

open Sys2Proof.Config

/-! ### Constants and addresses -/

/-- A constant of the field's range is the signed value of its word (R88, R130). -/
theorem toInt_truncW {c : Int} (hlo : -2147483648 ≤ c) (hhi : c ≤ 2147483647) :
    (truncW c).toInt = c :=
  BitVec.toInt_ofInt_eq_self (by decide) hlo (Int.lt_add_one_of_le hhi)

/-- An address below 1024 names the cell of that index under either policy (R56). -/
theorem translate_lt (policy : AddrPolicy) {a : Nat} (h : a < 1024) :
    translate policy a = .ok ⟨a, h⟩ := by
  cases policy with
  | reject => exact translate_reject_lt h
  | mask => rw [translate_mask]; exact congrArg Except.ok (Fin.ext (Nat.mod_eq_of_lt h))

/-! ### The state each retires with -/

/-- LOAD_MEM of an address that names a cell, to a register that exists (R134). -/
theorem exec_loadMem_ok {s : State} {a r : Nat} {k : Fin numMem} (hr : r < 32)
    (hk : translate s.addrPolicy a = .ok k) :
    exec (.loadMem a r) s = .next ((s.load ⟨r, hr⟩ (s.memRead k)).retire .loadMem) :=
  (s.withCell_ok _ hk).trans (s.withReg_lt _ _ hr)

/-- Settles O14, by LOAD_CONST to a register that exists. -/
theorem loadConstResult : Obligations.LoadConstResult :=
  fun c _ s hr => ⟨exec_loadConst_lt c hr s, toInt_truncW⟩

/-- Settles O15, by the cell that each policy makes of the address. -/
theorem loadMemResult : Obligations.LoadMemResult := by
  refine fun a r s hr => ⟨fun hp ha => ?_, fun hp => ?_⟩
  · exact exec_loadMem_ok hr (hp ▸ translate_reject_lt ha)
  · exact exec_loadMem_ok hr (hp ▸ translate_mask a)

/-- Settles O16, by the cell that each policy makes of the address. -/
theorem storeMemResult : Obligations.StoreMemResult := by
  refine fun r a s hr => ⟨fun hp ha => ?_, fun hp => ?_⟩
  · exact exec_storeMem_ok hr (hp ▸ translate_reject_lt ha)
  · exact exec_storeMem_ok hr (hp ▸ translate_mask a)

/-! ### The round trip -/

/-- LOAD_CONST leaves the constant in its register and memory as it was (R130). -/
theorem exists_exec_loadConst (c : Int) {r : Nat} (hr : r < 32) (s : State) :
    ∃ t, exec (.loadConst c r) s = .next t ∧ t.readReg ⟨r, hr⟩ = truncW c ∧ t.mem = s.mem :=
  ⟨_, exec_loadConst_lt c hr s, by simp, rfl⟩

/-- STORE_MEM into a canonical memory leaves its register's value in the cell (R138). -/
theorem exists_exec_storeMem {s : State} {r a : Nat} (hr : r < 32) (ha : a < 1024) (hm : s.mem.wf) :
    ∃ t, exec (.storeMem r a) s = .next t ∧ t.memRead ⟨a, ha⟩ = s.readReg ⟨r, hr⟩ :=
  ⟨_, exec_storeMem_ok hr (translate_lt _ ha), Memory.read_write_same hm a _⟩

/-- LOAD_MEM leaves the cell's value in its register and in the accumulator, and memory as it was
(R134). -/
theorem exists_exec_loadMem {s : State} {a r : Nat} (ha : a < 1024) (hr : r < 32) :
    ∃ t, exec (.loadMem a r) s = .next t ∧ t.readReg ⟨r, hr⟩ = s.memRead ⟨a, ha⟩ ∧
      t.acc = s.memRead ⟨a, ha⟩ ∧ t.mem = s.mem :=
  ⟨_, exec_loadMem_ok hr (translate_lt _ ha), by simp, rfl, rfl⟩

/-- Settles O30: the constant's word goes from the first register to the cell and from there to the
second register and the accumulator, and its signed value is the constant. -/
theorem storeLoadRoundTrip : Obligations.StoreLoadRoundTrip := by
  intro s c r r2 addr hr hr2 haddr hm hlo hhi
  obtain ⟨s1, e1, hreg, hmem1⟩ := exists_exec_loadConst c hr s
  obtain ⟨s2, e2, hstore⟩ := exists_exec_storeMem hr haddr (hmem1 ▸ hm)
  obtain ⟨s3, e3, hdest, hacc, hmem3⟩ := exists_exec_loadMem (s := s2) haddr hr2
  have hcell : s2.memRead ⟨addr, haddr⟩ = truncW c := hstore.trans hreg
  have hvalue : (s2.memRead ⟨addr, haddr⟩).toInt = c := hcell ▸ toInt_truncW hlo hhi
  refine ⟨s1, s2, s3, e1, e2, e3, ?_, ?_, ?_⟩
  · exact (congrArg BitVec.toInt hdest).trans hvalue
  · exact hmem3 ▸ hvalue
  · exact hacc ▸ hvalue

end Sys2Proof.Machine

/-! PROOF. GE_OP, ADD_OP and SUB_OP: the state each retires with, and that SUB_OP undoes ADD_OP (R150,
R151, R155, R158, R162; D1, D2). -/

namespace Sys2Proof.Machine

open Sys2Proof.Config

/-! ### The state each retires with -/

/-- An ALU instruction whose registers exist writes its result, a function of the old values of its
sources (R14, R100). -/
theorem State.aluOp_lt (s : State) (m : Mnemonic) (f : Word → Word → Word) {a b r : Nat}
    (ha : a < 32) (hb : b < 32) (hr : r < 32) :
    s.aluOp m f a b r =
      .next ((s.writeReg ⟨r, hr⟩ (f (s.readReg ⟨a, ha⟩) (s.readReg ⟨b, hb⟩))).retire m) :=
  ((s.withReg_lt _ _ ha).trans (s.withReg_lt _ _ hb)).trans (s.withReg_lt _ _ hr)

/-- Settles O17: `aluGe` is the signed comparison. -/
theorem greaterEqualResult : Obligations.GreaterEqualResult :=
  fun _ _ _ s ha hb hr => s.aluOp_lt .geOp aluGe ha hb hr

/-- Settles O18: the signed sum and the unsigned sum are both the sum of the words. -/
theorem addResult : Obligations.AddResult := by
  refine fun a b r s ha hb hr => ⟨s.aluOp_lt .addOp aluAdd ha hb hr, ?_⟩
  calc BitVec.ofInt 32 (s.regs[a].toInt + s.regs[b].toInt)
      = s.regs[a] + s.regs[b] := aluAdd_eq _ _
    _ = BitVec.ofNat 32 (s.regs[a].toNat + s.regs[b].toNat) := BitVec.add_def _ _

/-- Settles O19: `aluSub` is the truncated signed difference. -/
theorem subtractResult : Obligations.SubtractResult :=
  fun _ _ _ s ha hb hr => s.aluOp_lt .subOp aluSub ha hb hr

/-! ### SUB_OP after ADD_OP -/

/-- An ALU instruction whose registers exist leaves its result in the destination and every other
register as it was (R14, R22). -/
theorem State.exists_aluOp (s : State) (m : Mnemonic) (f : Word → Word → Word) {a b r : Nat}
    (ha : a < 32) (hb : b < 32) (hr : r < 32) :
    ∃ t, s.aluOp m f a b r = .next t ∧
      t.readReg ⟨r, hr⟩ = f (s.readReg ⟨a, ha⟩) (s.readReg ⟨b, hb⟩) ∧
      ∀ q ≠ ⟨r, hr⟩, t.readReg q = s.readReg q :=
  ⟨_, s.aluOp_lt m f ha hb hr, s.readReg_writeReg_same _ _,
    fun _ hq => s.readReg_writeReg_other _ hq⟩

/-- Settles O31: SUB_OP takes the second operand off the sum when ADD_OP left it in place, and takes the
sum off itself when the sum overwrote it. -/
theorem subtractUndoesAdd : Obligations.SubtractUndoesAdd := by
  intro s a b r r2 ha hb hr hr2
  obtain ⟨s1, e1, hsum, hkeep⟩ := s.exists_aluOp .addOp aluAdd ha hb hr
  obtain ⟨s2, e2, hdiff, -⟩ := s1.exists_aluOp .subOp aluSub hr hb hr2
  rw [aluAdd_eq] at hsum
  rw [aluSub_eq] at hdiff
  refine ⟨s1, s2, e1, e2, fun hne => ?_, fun heq => ?_⟩
  · have hb1 : s1.readReg ⟨b, hb⟩ = s.readReg ⟨b, hb⟩ :=
      hkeep _ fun h => hne (congrArg Fin.val h).symm
    calc s2.readReg ⟨r2, hr2⟩
        = s1.readReg ⟨r, hr⟩ - s1.readReg ⟨b, hb⟩ := hdiff
      _ = s.readReg ⟨a, ha⟩ + s.readReg ⟨b, hb⟩ - s.readReg ⟨b, hb⟩ := by rw [hsum, hb1]
      _ = s.readReg ⟨a, ha⟩ := BitVec.add_sub_cancel _ _
  · subst heq
    exact ⟨hsum, hdiff.trans (BitVec.sub_self _)⟩

end Sys2Proof.Machine

/-! PROOF. The trace port: what a record shows, and when one is emitted (R186, R187, R188; D9). -/

namespace Sys2Proof.Machine

/-! ### The cells of a record -/

@[simp] theorem State.observedCells_length (s : State) :
    s.observedCells.length = s.obsEnd + 1 - s.obsStart := by
  simp [State.observedCells]

/-- The cells stand in ascending order from `OBS_START` on (R187, D9). -/
theorem State.observedCells_getElem? (s : State) {j : Nat} (h : s.obsStart + j ≤ s.obsEnd) :
    s.observedCells[j]? = some (s.obsStart + j, s.mem.read (s.obsStart + j)) := by
  have hj : j < s.obsEnd + 1 - s.obsStart := by omega
  simp [State.observedCells, hj]

/-- The cells of the observation range with their values, and no others (R187). -/
theorem State.mem_observedCells {s : State} {k : Nat} {v : Word} :
    (k, v) ∈ s.observedCells ↔ (s.obsStart ≤ k ∧ k ≤ s.obsEnd) ∧ s.mem.read k = v := by
  have hrange : k ∈ List.range' s.obsStart (s.obsEnd + 1 - s.obsStart) ↔
      s.obsStart ≤ k ∧ k ≤ s.obsEnd := by
    rw [List.mem_range'_1]
    omega
  simp [State.observedCells, ← hrange]

/-- Settles O38, item by item. -/
theorem traceRecordContents : Obligations.TraceRecordContents := fun s =>
  ⟨s.observedCells_length, fun _ => s.observedCells_getElem?,
    fun j hj => s.observedRegs_get ⟨j, hj⟩, s.traceRecord_acc⟩

/-! ### When a record is emitted -/

/-- A step retires one instruction and appends the record of its next state, or ends the run and appends
none (R186, R188). -/
theorem step_emits_record_or_ends {s t : State} (h : step s = .next t) :
    (t.status = .running ∧ t.icount = s.icount + 1 ∧ t.trace = s.trace ++ [t.traceRecord]) ∨
    (t.status ≠ .running ∧ t.icount = s.icount ∧ t.trace = s.trace) := by
  obtain ⟨hs, ⟨-, rfl⟩ | ⟨i, u, -, hw, rfl⟩ | ⟨c, rfl⟩⟩ := step_halts_retires_or_raises h
  · exact .inr ⟨by simp, rfl, rfl⟩
  · obtain ⟨-, -, -, -, -, hicount, hstatus, htrace⟩ := hw.keeps
    exact .inl ⟨hstatus.trans hs, by simp [hicount], by simp [htrace]⟩
  · exact .inr ⟨by simp, rfl, rfl⟩

/-- Settles O39, by what a step does to the trace and by the cells of a record. -/
theorem oneRecordPerInstruction : Obligations.OneRecordPerInstruction :=
  ⟨fun _ _ => step_emits_record_or_ends, State.start_trace,
    fun _ _ hlo hhi => State.mem_observedCells.2 ⟨⟨hlo, hhi⟩, rfl⟩⟩

end Sys2Proof.Machine

/-! PROOF. A run over valid instructions that comes to an invalid one ends there in a fault (R171, R179,
R205; D3, D6). -/

namespace Sys2Proof.Machine

/-- A running block that has bytes left, but at `pc` no instruction that passes validation, takes a fault
(R95, R96, R99). -/
theorem exists_step_eq_raise {s : State} (hs : s.status = .running)
    (hpc : s.pc < s.program.length)
    (hbad : ∀ i, DecodesAt s i → ¬ PassesValidation s.addrPolicy i) :
    ∃ c, step s = .next (s.raise c) := by
  obtain ⟨t, h⟩ := exists_step_of_running hs hpc.le
  rcases (step_cases h).2 with ⟨hend, -⟩ | ⟨i, -, hd, hpass, -⟩ | ⟨-, c, -, -, -, rfl⟩ | ⟨c, -, rfl⟩
  · exact absurd hend hpc.ne
  · exact absurd hpass (hbad i hd)
  · exact ⟨c, h⟩
  · exact ⟨c, h⟩

/-- The instructions retire one by one, and the step after them takes the fault of the tail. -/
theorem State.RunsInto.endsAfter_raise {s : State} {is : List Instr} {tail : List Byte}
    (h : s.RunsInto is tail) (htail : tail ≠ [])
    (hbad : ∀ i rest, decode tail = .ok (i, rest) → ¬ PassesValidation s.addrPolicy i) :
    ∃ (u : State) (c : FaultCause), EndsAfter s (is.length + 1) (u.raise c) ∧
      u.pc = s.pc + (is.flatMap encode).length ∧ u.icount = s.icount + is.length ∧
      u.trace.length = s.trace.length + is.length := by
  obtain ⟨u, hu, -, hpolicy, hpc, hicount, htrace, hends⟩ := h.run
  have hbytes : u.program.drop u.pc = tail := hu.bytes
  have hinside : u.pc < u.program.length := by
    rwa [← hbytes, ne_eq, List.drop_eq_nil_iff, not_le] at htail
  obtain ⟨c, hstep⟩ := exists_step_eq_raise hu.running hinside fun i ⟨rest, hd⟩ =>
    hpolicy ▸ hbad i rest (hbytes ▸ hd)
  exact ⟨u, c, hends 1 _ (.of_step hstep ⟨run_zero _, by simp⟩), hpc, hicount, htrace⟩

/-- Settles O47: the start runs into the prefix, and the record of the fault is taken where it ends. -/
theorem firstInvalidInstructionFaults : Obligations.FirstInvalidInstructionFaults := by
  intro h is tail hle hend hbytes hvalid htail hbad
  have his : (State.start h).RunsInto is tail :=
    ⟨State.start_running hle hend, by simpa using hbytes, by simpa using hvalid⟩
  obtain ⟨u, c, hends, hpc, hicount, htrace⟩ := his.endsAfter_raise htail (by simpa using hbad)
  exact ⟨u.raise c, ⟨c, u.pc, u.icount⟩, hends, rfl, by simpa using hpc, by simpa using hicount,
    by simpa using htrace⟩

end Sys2Proof.Machine

/-! PROOF. The reset state as a start of a run (R41, R102, R201). -/

namespace Sys2Proof.Machine

/-- The configuration that the reset table writes out is the empty program under the range 0:0, with no
policy supplied. -/
theorem State.resetWith_emptyProgram : State.resetWith ⟨[], 0, 0, none⟩ = State.reset := rfl

/-- Settles O42: the range 0:0 is legal, so its check leaves the reset state as it is. -/
theorem resetIsStartOfEmptyProgram : Obligations.ResetIsStartOfEmptyProgram := by
  have hlegal : rangeLegal 0 0 := (rangeLegal_iff 0 0).mpr ⟨le_rfl, Nat.zero_le _⟩
  exact ((State.start_of_legal hlegal).trans State.resetWith_emptyProgram).symm

end Sys2Proof.Machine
